-- ==== Sys2Proof/Word.lean ====
section
/-! DEFINITION. The 32-bit host word (a window register, a command word), the 64-bit native integer of DATA, and the
slice notation `v[hi:lo]` of 00_scope.md R11. -/

namespace Sys2Proof

/-- A window register or a command word: 32 bits, bit 0 least significant (20_memory.md R58, 30_encoding.md R80). -/
abbrev Word := BitVec 32

/-- The native integer DATA = {DATA_HI, DATA_LO}; its width V is 64 (00_scope.md R9). -/
abbrev NativeInt := BitVec 64

end Sys2Proof
end

