-- ==== Sys2Proof/Config.lean ====
section
/-! DEFINITION. The build parameters (00_scope.md R5 to R10) and the platform parameter WINDOW_BASE (20_memory.md R50),
as one record. The spec asks a model to take them as arguments (R10), so the record is a field of State, and no
step changes it. The model has no other configuration: the values the spec leaves free (registers after a reset,
the moment of a commit) come from the script of events, which is plain data of State. -/

namespace Sys2Proof

/-- The parameters of one build and its place on the platform. -/
structure Build where
  /-- Limb width in bits (R5). -/
  L : Nat
  /-- Number of limbs (R5). -/
  N : Nat
  /-- Number of operand registers (R7). -/
  K : Nat
  /-- Does SUB report a negative result (R8)? -/
  trapNeg : Bool
  /-- Width of the limb accumulator (R6). It changes no architectural result. -/
  accBits : Nat
  /-- Where the window starts in the host's address space (20_memory.md R61). -/
  windowBase : Nat
deriving DecidableEq, Repr

/-- The operand width W = N * L (R5). -/
def Build.W (b : Build) : Nat := b.N * b.L

/-- The radix in which limbs are weighted, 2^L (R5). -/
def Build.base (b : Build) : Nat := 2 ^ b.L

/-- The largest limb, 2^L - 1 (R5). -/
def Build.limbMax (b : Build) : Nat := 2 ^ b.L - 1

/-- The constraints on the parameters: R6, R7 and R10. A build outside them is not specified (D30). -/
abbrev Build.Valid (b : Build) : Prop :=
  (b.L = 8 ∨ b.L = 16 ∨ b.L = 32) ∧ 1 ≤ b.N ∧ b.N ≤ 65535 ∧ b.W ≤ 65536 ∧
    4 ≤ b.K ∧ b.K ≤ 16 ∧ b.L + 1 ≤ b.accBits

/-- The reference configuration: L = 16, N = 4, W = 64 (R5), ACC_BITS = 32 (R6), K = 8 (R7), TRAP_NEG = false (R8).
WINDOW_BASE has no reference value in the spec. DESIGN CHOICE: 0 (log entry 5). -/
def Config.reference : Build :=
  { L := 16, N := 4, K := 8, trapNeg := false, accBits := 32, windowBase := 0 }

end Sys2Proof
end

