-- ==== Sys2Proof/Syntax.lean ====
section
/-! DEFINITION. The command set: one constructor per row of spec/opcode_table.json (30_encoding.md R87), operands in
the order of the assembly syntax of R92, and the pseudo-commands of R93. -/

namespace Sys2Proof

/-- A command. Register operands are register numbers, as the 4-bit fields hold them (R86). -/
inductive Instr where
  /-- `CLEAR Bd` (40_storage.md R111). -/
  | clear (rd : Nat)
  /-- `COPY Bd, Ba` (R112). -/
  | copy (rd ra : Nat)
  /-- `ISZERO Ba` (R113). -/
  | iszero (ra : Nat)
  /-- `CMP Ba, Bb` (R114). -/
  | cmp (ra rb : Nat)
  /-- `GETBIT Br, #idx` (R115). -/
  | getbit (r idx : Nat)
  /-- `SETBIT Br, #idx, #val` (R116). -/
  | setbit (r idx : Nat) (val : Bool)
  /-- `ADD Bd, Ba, Bb` (41_linear.md R144). -/
  | add (rd ra rb : Nat)
  /-- `SUB Bd, Ba, Bb` (R145). -/
  | sub (rd ra rb : Nat)
  /-- `SHL1 Bd, Ba` (R146). -/
  | shl1 (rd ra : Nat)
  /-- `SHR1 Bd, Ba` (R147). -/
  | shr1 (rd ra : Nat)
  /-- `MUL Bd, Ba, Bb` (42_composite.md R170). -/
  | mul (rd ra rb : Nat)
  /-- `DIV Bq, Br, Ba, Bb` (R175). An output that is omitted (`-` in assembly, enable bit 0 in the word, R85) is `none`. -/
  | div (quot rem : Option Nat) (ra rb : Nat)
  /-- `POWMOD Bd, Ba, Bb, Bc` (43_modexp.md R200). -/
  | powmod (rd ra rb rc : Nat)
  /-- `LOADINT Bd` (42_composite.md R186). -/
  | loadint (rd : Nat)
deriving DecidableEq, Repr

/-- `QUO Bq, Ba, Bb`: the quotient alone (R93). -/
def Instr.quo (q a b : Nat) : Instr := .div (some q) none a b

/-- `MOD Br, Ba, Bb`: the remainder alone (R93). -/
def Instr.mod (r a b : Nat) : Instr := .div none (some r) a b

/-- `DIVCHK Ba, Bb`: neither output, only ERR (R93). -/
def Instr.divchk (a b : Nat) : Instr := .div none none a b

/-- `SQR Bd, Ba`: MUL of a register by itself (R93). -/
def Instr.sqr (d a : Nat) : Instr := .mul d a a

end Sys2Proof
end

