-- ==== Sys2Proof/WellFormed.lean ====
section
/-! DEFINITION. Which commands a 32-bit word can hold: every register number fits its 4-bit field (30_encoding.md R86)
and every bit index its 16-bit field (R83). Whether a register exists in a build (number below K) and whether an
index names a bit (below W) are no matter of form: the first is checked when the word is executed (R90) and the
second by the command (40_storage.md R115, R116). -/

namespace Sys2Proof

/-- A register number that fits a 4-bit field. -/
def regField (r : Nat) : Bool := decide (r < 16)

/-- A bit index that fits the 16-bit field IDX. -/
def idxField (i : Nat) : Bool := decide (i < 65536)

/-- Can the command be encoded? -/
def Instr.wellFormed : Instr → Bool
  | .clear rd => regField rd
  | .copy rd ra => regField rd && regField ra
  | .iszero ra => regField ra
  | .cmp ra rb => regField ra && regField rb
  | .getbit r idx => regField r && idxField idx
  | .setbit r idx _ => regField r && idxField idx
  | .add rd ra rb => regField rd && regField ra && regField rb
  | .sub rd ra rb => regField rd && regField ra && regField rb
  | .shl1 rd ra => regField rd && regField ra
  | .shr1 rd ra => regField rd && regField ra
  | .mul rd ra rb => regField rd && regField ra && regField rb
  | .div quot rem ra rb => quot.all regField && rem.all regField && regField ra && regField rb
  | .powmod rd ra rb rc => regField rd && regField ra && regField rb && regField rc
  | .loadint rd => regField rd

end Sys2Proof
end

