-- ==== Sys2Proof/Decode.lean ====
section
/-! DEFINITION. Decoding a command word (30_encoding.md R90, its checks on the word alone) and, after it, encoding.
The decoder looks at nothing but the 32-bit word (R80). The check of register numbers against K, which needs the
build, is made when the command is executed (Machine/Operands.lean). -/

namespace Sys2Proof

/-- `w[hi:lo]` as an unsigned number (00_scope.md R11). -/
def bits (w : Word) (hi lo : Nat) : Nat := w.toNat >>> lo % 2 ^ (hi - lo + 1)

/-- `w[i]` (00_scope.md R11). -/
def flag (w : Word) (i : Nat) : Bool := w.getLsbD i

/-- OP, both formats (R81, R82). -/
def opField (w : Word) : Nat := bits w 7 0
/-- RD of format R and R of format B (R81, R82). -/
def rdField (w : Word) : Nat := bits w 11 8
/-- RA (R81). -/
def raField (w : Word) : Nat := bits w 15 12
/-- RB (R81). -/
def rbField (w : Word) : Nat := bits w 19 16
/-- RC (R81). -/
def rcField (w : Word) : Nat := bits w 23 20
/-- QEN (R85). -/
def qenField (w : Word) : Bool := flag w 24
/-- REN (R85). -/
def renField (w : Word) : Bool := flag w 25
/-- VAL (R84). -/
def valField (w : Word) : Bool := flag w 12
/-- IDX, zero-extended (R83). -/
def idxOf (w : Word) : Nat := bits w 31 16

/-- Why a word is ILLEGAL: the checks of R90 on the word, in their order. The block records none of this (60_exceptions.md R221). -/
inductive IllegalWord where
  /-- OP is 0x00 or 0x0F to 0xFF (R89). -/
  | reservedOpcode
  /-- A reserved bit or an unused field is not 0 (R88). -/
  | reservedBits
  /-- DIV with QEN = 0 and RD not 0 (R85). -/
  | disabledQuotient
  /-- DIV with REN = 0 and RC not 0 (R85). -/
  | disabledRemainder
deriving DecidableEq, Repr

/-- Every word decodes to one command or to ILLEGAL (R91). -/
inductive Decoded where
  | command (i : Instr)
  | illegal (why : IllegalWord)
deriving DecidableEq, Repr

/-- The reserved-bit check of R90: the word is the command only if `w & mask = match` (R87). -/
def strict (w mask pattern : Word) (i : Instr) : Decoded :=
  if w &&& mask = pattern then .command i else .illegal .reservedBits

/-- DIV's output register, absent when its enable bit is 0 (R85). -/
def output (enable : Bool) (field : Nat) : Option Nat := if enable then some field else none

/-- DIV: the reserved bits, then the two disabled fields (R90). -/
def decodeDiv (w : Word) : Decoded :=
  if w &&& 0xFC0000FF ≠ 0x0000000C then .illegal .reservedBits
  else if qenField w = false ∧ rdField w ≠ 0 then .illegal .disabledQuotient
  else if renField w = false ∧ rcField w ≠ 0 then .illegal .disabledRemainder
  else .command (.div (output (qenField w) (rdField w)) (output (renField w) (rcField w)) (raField w) (rbField w))

/-- The decoder: R90 over the opcode map of R87. -/
def decode (w : Word) : Decoded :=
  match opField w with
  | 0x01 => strict w 0xFFFFF0FF 0x00000001 (.clear (rdField w))
  | 0x02 => strict w 0xFFFF00FF 0x00000002 (.copy (rdField w) (raField w))
  | 0x03 => strict w 0xFFFF0FFF 0x00000003 (.iszero (raField w))
  | 0x04 => strict w 0xFFF00FFF 0x00000004 (.cmp (raField w) (rbField w))
  | 0x05 => strict w 0x0000F0FF 0x00000005 (.getbit (rdField w) (idxOf w))
  | 0x06 => strict w 0x0000E0FF 0x00000006 (.setbit (rdField w) (idxOf w) (valField w))
  | 0x07 => strict w 0xFFF000FF 0x00000007 (.add (rdField w) (raField w) (rbField w))
  | 0x08 => strict w 0xFFF000FF 0x00000008 (.sub (rdField w) (raField w) (rbField w))
  | 0x09 => strict w 0xFFFF00FF 0x00000009 (.shl1 (rdField w) (raField w))
  | 0x0A => strict w 0xFFFF00FF 0x0000000A (.shr1 (rdField w) (raField w))
  | 0x0B => strict w 0xFFF000FF 0x0000000B (.mul (rdField w) (raField w) (rbField w))
  | 0x0C => decodeDiv w
  | 0x0D => strict w 0xFF0000FF 0x0000000D (.powmod (rdField w) (raField w) (rbField w) (rcField w))
  | 0x0E => strict w 0xFFFFF0FF 0x0000000E (.loadint (rdField w))
  | _ => .illegal .reservedOpcode

/-- A word of format R: each field at the place R81 gives it. -/
def formatR (op rd ra rb rc : Nat) (qen ren : Bool) : Word :=
  BitVec.ofNat 32 (op + rd * 2 ^ 8 + ra * 2 ^ 12 + rb * 2 ^ 16 + rc * 2 ^ 20 + qen.toNat * 2 ^ 24 + ren.toNat * 2 ^ 25)

/-- A word of format B: each field at the place R82 gives it. -/
def formatB (op r idx : Nat) (val : Bool) : Word :=
  BitVec.ofNat 32 (op + r * 2 ^ 8 + val.toNat * 2 ^ 12 + idx * 2 ^ 16)

/-- The encoder: the word of a well-formed command (R81, R82, R87; unused fields and disabled outputs are 0, R85, R88). -/
def encode : Instr → Word
  | .clear rd => formatR 0x01 rd 0 0 0 false false
  | .copy rd ra => formatR 0x02 rd ra 0 0 false false
  | .iszero ra => formatR 0x03 0 ra 0 0 false false
  | .cmp ra rb => formatR 0x04 0 ra rb 0 false false
  | .getbit r idx => formatB 0x05 r idx false
  | .setbit r idx val => formatB 0x06 r idx val
  | .add rd ra rb => formatR 0x07 rd ra rb 0 false false
  | .sub rd ra rb => formatR 0x08 rd ra rb 0 false false
  | .shl1 rd ra => formatR 0x09 rd ra 0 0 false false
  | .shr1 rd ra => formatR 0x0A rd ra 0 0 false false
  | .mul rd ra rb => formatR 0x0B rd ra rb 0 false false
  | .div quot rem ra rb => formatR 0x0C (quot.getD 0) ra rb (rem.getD 0) quot.isSome rem.isSome
  | .powmod rd ra rb rc => formatR 0x0D rd ra rb rc false false
  | .loadint rd => formatR 0x0E rd 0 0 0 false false

/-- What the decoder reads from the `nbits` low bits of `w`, numbered as spec/opcode_table.json numbers them.
A command is one 32-bit word whose bit 0 is the table's bit 0 (R80), so no byte is moved. -/
def decodeTableWord (nbits w : Nat) : Option Instr :=
  match decode (BitVec.ofNat 32 (w % 2 ^ nbits)) with
  | .command i => some i
  | .illegal _ => none

end Sys2Proof
end

