-- ==== Sys2Proof/Machine/State.lean ====
section
/-! DEFINITION. Everything the spec gives the machine (10_state.md), the events that reach it, and its state after
reset (70_reset_and_hazards.md R250). Plain data throughout. -/

namespace Sys2Proof.Machine

/-- STATUS.ERR (10_state.md R24). Codes 7 to 15 are never written, so they are no constructors. -/
inductive ErrCode where
  | ok | overflow | negative | divzero | bounds | illegal | alias_
deriving DecidableEq, Repr

/-- STATUS.CMP (10_state.md R25). 0b10 is never written, so it is no constructor. -/
inductive CmpResult where
  | equal | greater | less
deriving DecidableEq, Repr

/-- The outcome a command leaves for its commit (10_state.md R42, 20_memory.md R55): staged register writes, staged
result fields and the ERR code. `none` in a result field means the commit leaves that field as it is (R36). -/
structure Pending where
  writes : List (Nat × Nat)
  cmp : Option CmpResult
  bit : Option Bool
  zero : Option Bool
  err : ErrCode
deriving DecidableEq, Repr

/-- The working registers (10_state.md R40). No program can read or write them. DEDUCED: they hold what the
pseudocode of the last command that used them left there (log entry 3). -/
structure Working where
  /-- The limb accumulator of ADD and SUB: its ACC_BITS raw bits. -/
  limbAcc : Nat
  /-- The carry of ADD is 1, or the borrow of SUB is -1. -/
  carry : Bool
  /-- MUL's accumulator `acc`. -/
  mulAcc : Nat
  /-- MUL's shifting copy `x` of the first operand. -/
  mulX : Nat
  /-- MUL's shifting copy `y` of the second operand. -/
  mulY : Nat
  /-- DIV's running remainder `R`. -/
  divR : Nat
  /-- DIV's quotient `Q`. -/
  divQ : Nat
  /-- POWMOD's `res`. -/
  powRes : Nat
  /-- POWMOD's `bs`. -/
  powBs : Nat
  /-- POWMOD's `e`. -/
  powE : Nat
deriving DecidableEq, Repr

/-- The width of a host access. Only 32-bit accesses are admitted (20_memory.md R54). -/
inductive Width where
  | byte | half | word | double
deriving DecidableEq, Repr

/-- The eight registers of the window (20_memory.md R50). -/
inductive WindowReg where
  | config | reserved | status | cmd | dataLo | dataHi | limbSel | limbData
deriving DecidableEq, Repr

/-- One indivisible event of the total order of 20_memory.md R63. -/
inductive Event where
  /-- A host read at a host address. -/
  | read (width : Width) (addr : Nat)
  /-- A host write of `v` at a host address. -/
  | write (width : Width) (addr : Nat) (v : Word)
  /-- The block's own turn: Commit if a command is pending (R56), else nothing. -/
  | block
  /-- Reset (70_reset_and_hazards.md R250), with the values that the operand registers and the working registers
  hold after it: any values, since the spec leaves them unspecified (I1; log entry 9). -/
  | reset (regs : List Nat) (work : Working)
deriving DecidableEq, Repr

/-- The block never halts: it has no trap, and `stuck` is not used (60_exceptions.md R228, 93_implementation_defined.md).
So no instruction and no event raises a fault, and there is no constructor. Safe: nothing is claimed of a fault. -/
inductive Fault where
deriving DecidableEq, Repr

/-- Why the model gives an event no meaning. -/
inductive Refusal where
  /-- Raised by an arm of `exec` whose instruction has no meaning yet; no arm raises it now. Safe. -/
  | notModelled (mnemonic : String)
  /-- A host access that is not 32 bits wide (20_memory.md R54, I12: "refuse"). Raised by the window. Safe. -/
  | accessWidth
  /-- A 32-bit access inside the window at an offset that is no multiple of 4 (R54, I12: "refuse"). Raised by the
  window. Safe. -/
  | misaligned
  /-- An access outside the 32 bytes of the window (R51, I13: "refuse"). Raised by the window. Safe. -/
  | outsideWindow
deriving DecidableEq, Repr

/-- The state of the block, of its place on the platform, and of the events still to come. -/
structure State where
  /-- CFG, reported by CONFIG: a constant of the build (10_state.md R31, 00_scope.md R10). No step changes it. -/
  build : Build
  /-- The operand registers B0..B(K-1), each by its value (10_state.md R20, 00_scope.md R12). -/
  regs : List Nat
  /-- STATUS.ERR (R24). -/
  err : ErrCode
  /-- STATUS.CMP (R25). -/
  cmp : CmpResult
  /-- STATUS.BIT (R26). -/
  bit : Bool
  /-- STATUS.ZERO (R27). -/
  zero : Bool
  /-- STATUS.LOST (R29). -/
  lost : Bool
  /-- DATA_LO (R33). -/
  dataLo : Word
  /-- DATA_HI (R33). -/
  dataHi : Word
  /-- LIMB_SEL.REG (R34). -/
  limbSelReg : BitVec 4
  /-- LIMB_SEL.LIMB (R34). -/
  limbSelLimb : BitVec 16
  /-- The pending command, as its outcome (R42); `none` when the sequencer is idle (R41). -/
  pending : Option Pending
  /-- The working registers (R40). -/
  work : Working
  /-- The MODEL's own: the events still to come, the next one first (log entry 6). -/
  script : List Event
  /-- The MODEL's own: what the host's reads have returned, the first one first (log entry 8). -/
  received : List Word
deriving DecidableEq, Repr

/-- STATUS.BUSY: 1 from issue to commit (R28), that is, while a command is pending (R41). -/
def State.busy (s : State) : Bool := s.pending.isSome

/-- Working registers that hold 0. DESIGN CHOICE: the spec gives them no reset value (R40; log entry 2). -/
def Working.zeros : Working :=
  { limbAcc := 0, carry := false, mulAcc := 0, mulX := 0, mulY := 0, divR := 0, divQ := 0, powRes := 0, powBs := 0,
    powE := 0 }

/-- The state after reset (R250) of a build whose operand and working registers hold the given values: idle, every
status field 0, DATA and LIMB_SEL 0. -/
def State.resetOf (b : Build) (regs : List Nat) (work : Working) : State :=
  { build := b, regs := regs, err := .ok, cmp := .equal, bit := false, zero := false, lost := false, dataLo := 0,
    dataHi := 0, limbSelReg := 0, limbSelLimb := 0, pending := none, work := work, script := [], received := [] }

/-- The machine right after reset, in the reference build. DESIGN CHOICE: the operand registers, which the spec
leaves unspecified (R20, R250), hold 0 (log entry 1), and so do the working registers (log entry 2). -/
def State.reset : State :=
  State.resetOf Config.reference (List.replicate Config.reference.K 0) Working.zeros

end Sys2Proof.Machine
end

