-- ==== Sys2Proof/Machine/Ops.lean ====
section
/-! DEFINITION. The operations every command is built from: reading the issue-time snapshot, raising and finishing
(00_scope.md R13), issue (20_memory.md R55), commit (R56), the block's turn, and the reset event
(70_reset_and_hazards.md R250). The block has no trap (60_exceptions.md R228); `raise` is what an error does. -/

namespace Sys2Proof.Machine

/-- What a command samples at issue: `(B[0..K-1], DATA, CFG)` (20_memory.md R55, 00_scope.md R14). -/
structure Snapshot where
  build : Build
  regs : List Nat
  data : NativeInt
deriving DecidableEq, Repr

/-- The snapshot of a state. DATA = {DATA_HI, DATA_LO} (10_state.md R33). -/
def State.snapshot (s : State) : Snapshot :=
  { build := s.build, regs := s.regs, data := s.dataHi ++ s.dataLo }

/-- `B[i]` of the snapshot (00_scope.md R13). A register number at or beyond K never gets here (30_encoding.md R90). -/
def Snapshot.reg (c : Snapshot) (i : Nat) : Nat := c.regs.getD i 0

/-- The committed value of operand register `i` of a state (10_state.md R20). -/
def State.reg (s : State) (i : Nat) : Nat := s.regs.getD i 0

/-- What running a command's rule gives: the outcome for its commit, and the working registers as it leaves them. -/
structure Execution where
  pending : Pending
  work : Working
deriving DecidableEq, Repr

/-- `raise <Code>()`: every staged write is discarded, and the commit writes ERR alone (00_scope.md R13,
60_exceptions.md R223). -/
def Execution.raise (e : ErrCode) (w : Working) : Execution :=
  { pending := { writes := [], cmp := none, bit := none, zero := none, err := e }, work := w }

/-- `finish(<Code>)`, with the staged register writes and no result field (00_scope.md R13). -/
def Execution.finish (e : ErrCode) (writes : List (Nat × Nat)) (w : Working) : Execution :=
  { pending := { writes := writes, cmp := none, bit := none, zero := none, err := e }, work := w }

/-- Applies staged writes `B[i] <- v` in order. -/
def applyWrites (writes : List (Nat × Nat)) (regs : List Nat) : List Nat :=
  writes.foldl (fun rs p => rs.set p.1 p.2) regs

/-- Issue (20_memory.md R55): while busy the word is dropped and LOST is set, and nothing else changes; otherwise the
outcome is pending and BUSY is 1. -/
def State.issue (s : State) (x : Execution) : State :=
  if s.busy then { s with lost := true } else { s with pending := some x.pending, work := x.work }

/-- Commit (20_memory.md R56): the staged writes, ERR and BUSY, in one indivisible step. It is enabled only while a
command is pending. -/
def State.commit (s : State) : State :=
  match s.pending with
  | none => s
  | some p =>
    { s with
      regs := applyWrites p.writes s.regs
      cmp := p.cmp.getD s.cmp
      bit := p.bit.getD s.bit
      zero := p.zero.getD s.zero
      err := p.err
      pending := none }

/-- The block's own turn: its one internal step is Commit (20_memory.md R56); when idle it does nothing
(60_exceptions.md R237). -/
def State.blockStep (s : State) : State := s.commit

/-- The operand registers a reset leaves: K registers of W bits, otherwise any values (70_reset_and_hazards.md R250,
93_implementation_defined.md I1). -/
def resetRegs (b : Build) (values : List Nat) : List Nat :=
  (List.range b.K).map fun i => values.getD i 0 % 2 ^ b.W

/-- Working registers cut to their widths (10_state.md R40). -/
def Working.fit (b : Build) (w : Working) : Working :=
  { limbAcc := w.limbAcc % 2 ^ b.accBits, carry := w.carry, mulAcc := w.mulAcc % 2 ^ b.W, mulX := w.mulX % 2 ^ b.W,
    mulY := w.mulY % 2 ^ b.W, divR := w.divR % 2 ^ b.W, divQ := w.divQ % 2 ^ b.W, powRes := w.powRes % 2 ^ b.W,
    powBs := w.powBs % 2 ^ b.W, powE := w.powE % 2 ^ b.W }

/-- The reset event (70_reset_and_hazards.md R250): a pending command is discarded, and every field takes its reset
value; the registers the spec leaves unspecified take the values the event carries. The host's side (what is still to
come, what was read) is no part of the block and stays. -/
def State.resetEvent (s : State) (regs : List Nat) (work : Working) : State :=
  { State.resetOf s.build (resetRegs s.build regs) (work.fit s.build) with
    script := s.script, received := s.received }

end Sys2Proof.Machine
end

