-- ==== Sys2Proof/Machine/Operands.lean ====
section
/-! DEFINITION. Operands: the limbs and bits of a value (00_scope.md R12, 40_storage.md R110), the check of register
fields against K (30_encoding.md R86, R90), and the frame that runs a command's rule on the issue-time snapshot. -/

namespace Sys2Proof.Machine

/-- `limb(v, j) = v[L*j + L - 1 : L*j]` (00_scope.md R12). -/
def limb (L v j : Nat) : Nat := v / 2 ^ (L * j) % 2 ^ L

/-- Bit `i` of an operand: bit `i mod L` of limb `i div L` (40_storage.md R110). -/
def bitOf (L v i : Nat) : Bool := (limb L v (i / L)).testBit (i % L)

/-- A W-bit `v` with bit `i` set or cleared: `(v & ~(1 << i)) | (val << i)` (40_storage.md R116). -/
def withBit (W v i : Nat) (val : Bool) : Nat :=
  (v &&& ((2 ^ W - 1) ^^^ (1 <<< i))) ||| (val.toNat <<< i)

/-- The last decode check of R90: a register field that the command uses must be below K, or the word is ILLEGAL
(R86). Otherwise the command's rule runs. -/
def checked (fields : List Nat) (c : Snapshot) (w : Working) (run : Snapshot → Working → Execution) : Execution :=
  if fields.all (fun f => decide (f < c.build.K)) then run c w else Execution.raise .illegal w

/-- Issues a command that uses the register fields `fields` and whose rule is `run`: the rule reads the issue-time
snapshot and nothing else (00_scope.md R14, 30_encoding.md R90). -/
def execute (fields : List Nat) (run : Snapshot → Working → Execution) (s : State) :
    Host.Outcome State Fault Refusal :=
  .next (s.issue (checked fields s.snapshot s.work run))

/-- Issues a word that no command matches: its outcome is `raise ILLEGAL()` (20_memory.md R55, 60_exceptions.md R221). -/
def issueIllegal (s : State) : Host.Outcome State Fault Refusal :=
  .next (s.issue (Execution.raise .illegal s.work))

end Sys2Proof.Machine
end

