-- ==== Sys2Proof/Machine/Flags.lean ====
section
/-! DEFINITION. The status fields: their codes (10_state.md R24, R25), how a command reports its result in ERR
(41_linear.md R144, R145; 42_composite.md R186), the staged result fields of CMP, GETBIT and ISZERO (10_state.md R36),
and the STATUS and CONFIG words (R23, R31). -/

namespace Sys2Proof.Machine

/-- The code of STATUS.ERR (10_state.md R24). -/
def ErrCode.code : ErrCode → BitVec 4
  | .ok => 0
  | .overflow => 1
  | .negative => 2
  | .divzero => 3
  | .bounds => 4
  | .illegal => 5
  | .alias_ => 6

/-- Is the code one a command raises (60_exceptions.md R220)? The others a command finishes with. -/
def ErrCode.raised : ErrCode → Bool
  | .divzero | .bounds | .illegal | .alias_ => true
  | .ok | .overflow | .negative => false

/-- The code of STATUS.CMP: the 2-bit two's-complement sign of `a - b` (10_state.md R25). -/
def CmpResult.code : CmpResult → BitVec 2
  | .equal => 0b00
  | .greater => 0b01
  | .less => 0b11

/-- ADD and LOADINT: OVERFLOW when the result does not fit in W bits (41_linear.md R144, 42_composite.md R186). -/
def overflowStatus (overflows : Bool) : ErrCode := if overflows then .overflow else .ok

/-- SUB: NEGATIVE when `a < b` and the build has TRAP_NEG (41_linear.md R145). -/
def negativeStatus (trapNeg borrows : Bool) : ErrCode := if borrows && trapNeg then .negative else .ok

/-- `STATUS.ZERO <- z; finish(OK)` (40_storage.md R113). -/
def finishZero (z : Bool) (w : Working) : Execution :=
  { pending := { writes := [], cmp := none, bit := none, zero := some z, err := .ok }, work := w }

/-- `STATUS.CMP <- c; finish(OK)` (40_storage.md R114). -/
def finishCmp (c : CmpResult) (w : Working) : Execution :=
  { pending := { writes := [], cmp := some c, bit := none, zero := none, err := .ok }, work := w }

/-- `STATUS.BIT <- v; finish(OK)` (40_storage.md R115). -/
def finishBit (v : Bool) (w : Working) : Execution :=
  { pending := { writes := [], cmp := none, bit := some v, zero := none, err := .ok }, work := w }

/-- The STATUS register: `{0[31:10], LOST, BUSY, ZERO, BIT, CMP[1:0], ERR[3:0]}` (10_state.md R23, 20_memory.md R52). -/
def State.statusWord (s : State) : Word :=
  (0#22 ++ BitVec.ofBool s.lost ++ BitVec.ofBool s.busy ++ BitVec.ofBool s.zero ++ BitVec.ofBool s.bit ++ s.cmp.code ++
    s.err.code : BitVec 32)

/-- The CONFIG register: reserved[31:29], TRAP_NEG[28], NREGS_M1[27:24], reserved[23:22], LIMB_BITS[21:16],
LIMBS[15:0] (10_state.md R31). -/
def configWord (b : Build) : Word :=
  (0#3 ++ BitVec.ofBool b.trapNeg ++ BitVec.ofNat 4 (b.K - 1) ++ 0#2 ++ BitVec.ofNat 6 b.L ++ BitVec.ofNat 16 b.N :
    BitVec 32)

end Sys2Proof.Machine
end

