-- ==== Sys2Proof/Machine/Linear.lean ====
section
/-! DEFINITION. Linear arithmetic (41_linear.md): the carry and borrow chains over the wide limb accumulator (R140, R142), the
one-bit shift networks (R146, R147), and the commands ADD, SUB, SHL1, SHR1. -/

namespace Sys2Proof.Machine

/-- The carry chain after some limbs: the limbs stored so far as a value, the accumulator, the carry. -/
structure AddChain where
  low : Nat
  acc : Nat
  carry : Nat
deriving DecidableEq, Repr

/-- The carry chain (R140) after limbs `0..j-1`. The accumulator is unsigned and ACC_BITS wide (00_scope.md R6). -/
def addChain (b : Build) (x y : Nat) : Nat → AddChain
  | 0 => { low := 0, acc := 0, carry := 0 }
  | j + 1 =>
    let p := addChain b x y j
    let acc := (limb b.L x j + limb b.L y j + p.carry) % 2 ^ b.accBits
    { low := p.low + (acc &&& b.limbMax) * b.base ^ j, acc := acc, carry := acc >>> b.L }

/-- The borrow chain after some limbs. The accumulator is signed, and the borrow is 0 or -1. -/
structure SubChain where
  low : Nat
  acc : Int
  borrow : Int
deriving DecidableEq, Repr

/-- The borrow chain (R142) after limbs `0..j-1`. The accumulator is ACC_BITS wide in two's complement (00_scope.md R6). -/
def subChain (b : Build) (x y : Nat) : Nat → SubChain
  | 0 => { low := 0, acc := 0, borrow := 0 }
  | j + 1 =>
    let p := subChain b x y j
    let acc := ((limb b.L x j : Int) - limb b.L y j + p.borrow).bmod (2 ^ b.accBits)
    { low := p.low + (acc % (b.base : Int)).toNat * b.base ^ j, acc := acc, borrow := acc / (b.base : Int) }

/-- ADD (R144): the truncated sum is written, and a carry out of the top limb is OVERFLOW. -/
def execAdd (rd ra rb : Nat) : State → Host.Outcome State Fault Refusal :=
  execute [rd, ra, rb] fun c w =>
    let sum := addChain c.build (c.reg ra) (c.reg rb) c.build.N
    Execution.finish (overflowStatus (sum.carry != 0)) [(rd, sum.low)]
      { w with limbAcc := sum.acc, carry := sum.carry != 0 }

/-- SUB (R145): the wrapped difference is written, and a borrow out of the top limb is NEGATIVE in a TRAP_NEG build. -/
def execSub (rd ra rb : Nat) : State → Host.Outcome State Fault Refusal :=
  execute [rd, ra, rb] fun c w =>
    let diff := subChain c.build (c.reg ra) (c.reg rb) c.build.N
    Execution.finish (negativeStatus c.build.trapNeg (diff.borrow != 0)) [(rd, diff.low)]
      { w with limbAcc := (diff.acc % 2 ^ c.build.accBits).toNat, carry := diff.borrow != 0 }

/-- The left shift network after limbs `0..j-1`: the limbs stored so far, and the carry into the next limb. -/
structure ShlChain where
  low : Nat
  c : Nat
deriving DecidableEq, Repr

/-- SHL1's loop (R146), least significant limb first. -/
def shlChain (b : Build) (a : Nat) : Nat → ShlChain
  | 0 => { low := 0, c := 0 }
  | j + 1 =>
    let p := shlChain b a j
    let t := limb b.L a j
    { low := p.low + (((t <<< 1) ||| p.c) &&& b.limbMax) * b.base ^ j, c := (t.testBit (b.L - 1)).toNat }

/-- SHL1 (R146): the old bit W-1 is discarded, and there is no error. -/
def execShl1 (rd ra : Nat) : State → Host.Outcome State Fault Refusal :=
  execute [rd, ra] fun c w => Execution.finish .ok [(rd, (shlChain c.build (c.reg ra) c.build.N).low)] w

/-- SHR1's loop (R147) over limbs `j-1` down to 0, with the carry `c` from the limb above: the value stored. -/
def shrChain (b : Build) (a : Nat) : Nat → Nat → Nat
  | 0, _ => 0
  | j + 1, c =>
    let t := limb b.L a j
    ((t >>> 1) ||| (c <<< (b.L - 1))) * b.base ^ j + shrChain b a j (t.testBit 0).toNat

/-- SHR1 (R147): the old bit 0 is discarded, and there is no error. -/
def execShr1 (rd ra : Nat) : State → Host.Outcome State Fault Refusal :=
  execute [rd, ra] fun c w => Execution.finish .ok [(rd, shrChain c.build (c.reg ra) c.build.N 0)] w

end Sys2Proof.Machine
end

