-- ==== Sys2Proof/Machine/Composite.lean ====
section
/-! DEFINITION. Composite arithmetic (42_composite.md): the shift-and-add multiplier (R170), the binary long division unit (R175)
and the loading of a native integer (R186). The multiplier and the divider work on the working registers of 10_state.md R40. -/

namespace Sys2Proof.Machine

/-- One pass of MUL's loop (R170). The accumulation is modular: its carry-out is discarded (R171). -/
def mulPass (W : Nat) (w : Working) : Working :=
  { w with
    mulAcc := if w.mulX.testBit 0 then (w.mulAcc + w.mulY) % 2 ^ W else w.mulAcc
    mulX := w.mulX >>> 1
    mulY := (w.mulY <<< 1) % 2 ^ W }

/-- `while x != 0` (R170). The loop makes at most W passes, so W is enough fuel for a W-bit `x`. -/
def mulLoop (W : Nat) : Nat → Working → Working
  | 0, w => w
  | fuel + 1, w => if w.mulX = 0 then w else mulLoop W fuel (mulPass W w)

/-- The multiplier on operands `a` and `b` (R170); the product mod 2^W is left in `mulAcc` (R172). -/
def multiply (W a b : Nat) (w : Working) : Working :=
  mulLoop W W { w with mulAcc := 0, mulX := a, mulY := b }

/-- MUL (R170): a destination that names a source raises ALIAS. -/
def execMul (rd ra rb : Nat) : State → Host.Outcome State Fault Refusal :=
  execute [rd, ra, rb] fun c w =>
    if rd = ra ∨ rd = rb then Execution.raise .alias_ w
    else
      let w' := multiply c.build.W (c.reg ra) (c.reg rb) w
      Execution.finish .ok [(rd, w'.mulAcc)] w'

/-- One pass of DIV's loop (R175), for bit `i` of the numerator `a` and divisor `b`. -/
def divPass (W a b i : Nat) (w : Working) : Working :=
  let shifted := (w.divR <<< 1) % 2 ^ W ||| (a.testBit i).toNat
  if shifted ≥ b then { w with divR := (shifted - b) % 2 ^ W, divQ := w.divQ ||| (1 <<< i) }
  else { w with divR := shifted }

/-- `for i from W-1 downto 0` (R175), over the bits below `i`. -/
def divLoop (W a b : Nat) : Nat → Working → Working
  | 0, w => w
  | i + 1, w => divLoop W a b i (divPass W a b i w)

/-- The divider on numerator `a` and divisor `b` (R175); it leaves the quotient in `divQ` and the remainder in `divR`
(R178). -/
def divide (W a b : Nat) (w : Working) : Working :=
  divLoop W a b W { w with divR := 0, divQ := 0 }

/-- DIV's outputs are one register (R175). -/
def sameOutput (quot rem : Option Nat) : Bool := quot.isSome && quot == rem

/-- DIV (R175): ALIAS for one register as both outputs, then DIVZERO for a zero divisor, else the enabled outputs are
written. -/
def execDiv (quot rem : Option Nat) (ra rb : Nat) : State → Host.Outcome State Fault Refusal :=
  execute (ra :: rb :: (quot.toList ++ rem.toList)) fun c w =>
    if sameOutput quot rem then Execution.raise .alias_ w
    else if c.reg rb = 0 then Execution.raise .divzero w
    else
      let w' := divide c.build.W (c.reg ra) (c.reg rb) w
      Execution.finish .ok (quot.toList.map (·, w'.divQ) ++ rem.toList.map (·, w'.divR)) w'

/-- What LOADINT's loop (R186) has stored in the limbs it wrote, and whether a limb beyond the last was needed. -/
structure Loaded where
  out : Nat
  ovf : Bool
deriving DecidableEq, Repr

/-- LOADINT's loop (R186) with `t` still to store and `n` limbs left: the limbs it stores, the first of them at weight 1. -/
def loadLimbs (b : Build) : Nat → Nat → Loaded
  | 0, t => { out := 0, ovf := t != 0 }
  | n + 1, t =>
    if t = 0 then { out := 0, ovf := false }
    else
      let rest := loadLimbs b n (t / b.base)
      { out := t % b.base + b.base * rest.out, ovf := rest.ovf }

/-- LOADINT (R186): the low limbs of DATA are written, and OVERFLOW reports a value that needs more. -/
def execLoadint (rd : Nat) : State → Host.Outcome State Fault Refusal :=
  execute [rd] fun c w =>
    let x := loadLimbs c.build c.build.N c.data.toNat
    Execution.finish (overflowStatus x.ovf) [(rd, x.out)] w

end Sys2Proof.Machine
end

