-- ==== Sys2Proof/Machine/Modexp.lean ====
section
/-! DEFINITION. Modular exponentiation (43_modexp.md): the square-and-multiply engine over the multiplier and the
divider, and the command POWMOD (R200). -/

namespace Sys2Proof.Machine

/-- MUL then DIV keeping the remainder, on private registers (R200): it leaves `((a * b) mod 2^W) mod c` in `divR`. -/
def mulMod (W a b c : Nat) (w : Working) : Working :=
  let m := multiply W a b w
  divide W m.mulAcc c m

/-- `if e[0] = 1 then res <- ((res * bs) mod 2^W) mod c` (R200). -/
def powMultiply (W c : Nat) (w : Working) : Working :=
  if w.powE.testBit 0 then
    let m := mulMod W w.powRes w.powBs c w
    { m with powRes := m.divR }
  else w

/-- `bs <- ((bs * bs) mod 2^W) mod c; e <- e >> 1` (R200). -/
def powSquare (W c : Nat) (w : Working) : Working :=
  let m := mulMod W w.powBs w.powBs c w
  { m with powBs := m.divR, powE := m.powE >>> 1 }

/-- `while e != 0` (R200). The loop makes at most W passes, so W is enough fuel for a W-bit `e`. -/
def powLoop (W c : Nat) : Nat → Working → Working
  | 0, w => w
  | fuel + 1, w => if w.powE = 0 then w else powLoop W c fuel (powSquare W c (powMultiply W c w))

/-- The engine on base `a`, exponent `b` and modulus `c` (R200); it leaves the result in `powRes`. -/
def powMod (W a b c : Nat) (w : Working) : Working :=
  powLoop W c W { w with powRes := 1, powBs := a, powE := b }

/-- POWMOD (R200): a zero modulus raises DIVZERO before any work. -/
def execPowmod (rd ra rb rc : Nat) : State → Host.Outcome State Fault Refusal :=
  execute [rd, ra, rb, rc] fun c w =>
    if c.reg rc = 0 then Execution.raise .divzero w
    else
      let w' := powMod c.build.W (c.reg ra) (c.reg rb) (c.reg rc) w
      Execution.finish .ok [(rd, w'.powRes)] w'

end Sys2Proof.Machine
end

