-- ==== Sys2Proof/Machine/Storage.lean ====
section
/-! DEFINITION. The storage primitives of 40_storage.md: CLEAR, COPY, ISZERO, CMP, GETBIT, SETBIT. -/

namespace Sys2Proof.Machine

/-- CLEAR (R111): `B[rd] <- 0`. -/
def execClear (rd : Nat) : State → Host.Outcome State Fault Refusal :=
  execute [rd] fun _ w => Execution.finish .ok [(rd, 0)] w

/-- COPY (R112): `B[rd] <- a`. -/
def execCopy (rd ra : Nat) : State → Host.Outcome State Fault Refusal :=
  execute [rd, ra] fun c w => Execution.finish .ok [(rd, c.reg ra)] w

/-- ISZERO (R113): `STATUS.ZERO <- (a = 0)`, every limb being 0. -/
def execIszero (ra : Nat) : State → Host.Outcome State Fault Refusal :=
  execute [ra] fun c w => finishZero ((List.range c.build.N).all fun j => limb c.build.L (c.reg ra) j == 0) w

/-- CMP's loop (R114) over the limbs below `j`, the most significant first: the first that differs decides. -/
def compareLimbs (L a b : Nat) : Nat → CmpResult
  | 0 => .equal
  | j + 1 =>
    if limb L a j ≠ limb L b j then
      if limb L a j > limb L b j then .greater else .less
    else compareLimbs L a b j

/-- CMP (R114): `STATUS.CMP <- ` the unsigned order of the operands. -/
def execCmp (ra rb : Nat) : State → Host.Outcome State Fault Refusal :=
  execute [ra, rb] fun c w => finishCmp (compareLimbs c.build.L (c.reg ra) (c.reg rb) c.build.N) w

/-- GETBIT (R115): BOUNDS at or beyond W, else `STATUS.BIT <- ` the bit. -/
def execGetbit (r idx : Nat) : State → Host.Outcome State Fault Refusal :=
  execute [r] fun c w =>
    if idx ≥ c.build.W then Execution.raise .bounds w else finishBit (bitOf c.build.L (c.reg r) idx) w

/-- SETBIT (R116): BOUNDS at or beyond W, else the bit is written in place. -/
def execSetbit (r idx : Nat) (val : Bool) : State → Host.Outcome State Fault Refusal :=
  execute [r] fun c w =>
    if idx ≥ c.build.W then Execution.raise .bounds w else Execution.finish .ok [(r, withBit c.build.W (c.reg r) idx val)] w

end Sys2Proof.Machine
end

