-- ==== Sys2Proof/Machine/Dispatch.lean ====
section
/-! DEFINITION. One arm per command: each calls the command's own meaning (30_encoding.md R90, "run the rule named for op"). -/

namespace Sys2Proof.Machine

def exec (i : Instr) (s : State) : Host.Outcome State Fault Refusal :=
  match i with
  | .clear rd => Sys2Proof.Machine.execClear rd s
  | .copy rd ra => Sys2Proof.Machine.execCopy rd ra s
  | .iszero ra => Sys2Proof.Machine.execIszero ra s
  | .cmp ra rb => Sys2Proof.Machine.execCmp ra rb s
  | .getbit r idx => Sys2Proof.Machine.execGetbit r idx s
  | .setbit r idx val => Sys2Proof.Machine.execSetbit r idx val s
  | .add rd ra rb => Sys2Proof.Machine.execAdd rd ra rb s
  | .sub rd ra rb => Sys2Proof.Machine.execSub rd ra rb s
  | .shl1 rd ra => Sys2Proof.Machine.execShl1 rd ra s
  | .shr1 rd ra => Sys2Proof.Machine.execShr1 rd ra s
  | .mul rd ra rb => Sys2Proof.Machine.execMul rd ra rb s
  | .div quot rem ra rb => Sys2Proof.Machine.execDiv quot rem ra rb s
  | .powmod rd ra rb rc => Sys2Proof.Machine.execPowmod rd ra rb rc s
  | .loadint rd => Sys2Proof.Machine.execLoadint rd s

end Sys2Proof.Machine
end

