-- ==== Sys2Proof/Machine/Window.lean ====
section
/-! DEFINITION. The host register window (20_memory.md): which accesses are admitted (R50, R51, R54), what a read returns (R52) and
what a write does (R53), the issue of a command word (R55), and what each event of the total order does (R63). -/

namespace Sys2Proof.Machine

/-- The register at a window offset (20_memory.md R50). -/
def windowReg : Nat → Option WindowReg
  | 0x00 => some .config
  | 0x04 => some .reserved
  | 0x08 => some .status
  | 0x0C => some .cmd
  | 0x10 => some .dataLo
  | 0x14 => some .dataHi
  | 0x18 => some .limbSel
  | 0x1C => some .limbData
  | _ => none

/-- Which register an access reaches. Refused: a width other than 32 bits and a misaligned offset (R54), and an
address outside the window (R51). -/
def windowAccess (b : Build) (width : Width) (addr : Nat) : Except Refusal WindowReg :=
  if width ≠ .word then .error .accessWidth
  else if addr < b.windowBase ∨ b.windowBase + 0x20 ≤ addr then .error .outsideWindow
  else
    match windowReg (addr - b.windowBase) with
    | some r => .ok r
    | none => .error .misaligned

/-- LIMB_DATA: the selected limb zero-extended, or 0 out of range (10_state.md R35). -/
def State.limbData (s : State) : Word :=
  if s.limbSelReg.toNat < s.build.K ∧ s.limbSelLimb.toNat < s.build.N then
    BitVec.ofNat 32 (limb s.build.L (s.reg s.limbSelReg.toNat) s.limbSelLimb.toNat)
  else 0

/-- HostRead (R52). No read changes any state. -/
def State.hostRead (s : State) : WindowReg → Word
  | .config => configWord s.build
  | .reserved => 0
  | .status => s.statusWord
  | .cmd => 0
  | .dataLo => s.dataLo
  | .dataHi => s.dataHi
  | .limbSel => s.limbSelLimb ++ 0#12 ++ s.limbSelReg
  | .limbData => s.limbData

/-- Issue of a command word (R55): decode, then the command's rule; a word that decodes to no command is issued too,
and its outcome is ILLEGAL (R90). -/
def issueWord (w : Word) (s : State) : Host.Outcome State Fault Refusal :=
  match decode w with
  | .command i => exec i s
  | .illegal _ => issueIllegal s

/-- HostWrite (R53). -/
def hostWrite (r : WindowReg) (v : Word) (s : State) : Host.Outcome State Fault Refusal :=
  match r with
  | .config => .next s
  | .reserved => .next s
  | .status => .next (if v.getLsbD 9 then { s with lost := false } else s)
  | .cmd => issueWord v s
  | .dataLo => .next { s with dataLo := v }
  | .dataHi => .next { s with dataHi := v }
  | .limbSel => .next { s with limbSelReg := v.extractLsb' 0 4, limbSelLimb := v.extractLsb' 16 16 }
  | .limbData => .next s

/-- What one event does (20_memory.md R63). A read gives the host its word and changes nothing else. -/
def react (e : Event) (s : State) : Host.Outcome State Fault Refusal :=
  match e with
  | .read width addr =>
    match windowAccess s.build width addr with
    | .ok r => .next { s with received := s.received ++ [s.hostRead r] }
    | .error why => .refused why
  | .write width addr v =>
    match windowAccess s.build width addr with
    | .ok r => hostWrite r v s
    | .error why => .refused why
  | .block => .next s.blockStep
  | .reset regs work => .next (s.resetEvent regs work)

/-- The byte that a byte-addressed platform places at offset `off` of the window: byte k of the register at the
multiple of 4 below, bits 8k+7 : 8k (R58). It says where a register lies; a byte access is not admitted (R54). -/
def State.laneByte (s : State) (off : Nat) : Option (BitVec 8) :=
  (windowReg (off - off % 4)).map fun r => (s.hostRead r).extractLsb' (8 * (off % 4)) 8

/-- The host's access that writes a command word to CMD. -/
def cmdWrite (b : Build) (w : Word) : Event := .write .word (b.windowBase + 0x0C) w

end Sys2Proof.Machine
end

