-- ==== Sys2Proof/Machine/Step.lean ====
section
/-! DEFINITION. One step of the whole: the next event of the script, or, when the script is used up, the block's own turn, so that
a pending command always commits (20_memory.md R56, 70_reset_and_hazards.md R263). -/

namespace Sys2Proof.Machine

/-- The step. Its next state, or a refusal of the host's access; it has no fault. -/
def step (s : State) : Host.Outcome State Fault Refusal :=
  match s.script with
  | [] => .next s.blockStep
  | e :: rest => react e { s with script := rest }

/-- `s` with the low `nbits` bits of `w` as the very next command word: the host's write of it to CMD comes first in
the script. A command word runs only when the block is idle (20_memory.md R55), so a pending command commits first
(log entry 13). -/
def State.withFetchWord (s : State) (nbits w : Nat) : State :=
  { s.commit with script := cmdWrite s.build (BitVec.ofNat 32 (w % 2 ^ nbits)) :: s.script }

end Sys2Proof.Machine
end

