-- ==== Sys2Proof/Safety.lean ====
section
/-! DEFINITION. The terms the claims use: the invariant of a state, what it is for a command to run to its commit,
which registers a command uses, reads and writes (10_state.md R21), when a script makes only admitted accesses, and
the value POWMOD's loop computes, as a recursion on the exponent's bits (43_modexp.md R200). -/

namespace Sys2Proof

/-- The register fields a command uses (30_encoding.md R87; for DIV, RD only if QEN = 1 and RC only if REN = 1, R90). -/
def Instr.uses : Instr → List Nat
  | .clear rd => [rd]
  | .copy rd ra => [rd, ra]
  | .iszero ra => [ra]
  | .cmp ra rb => [ra, rb]
  | .getbit r _ => [r]
  | .setbit r _ _ => [r]
  | .add rd ra rb => [rd, ra, rb]
  | .sub rd ra rb => [rd, ra, rb]
  | .shl1 rd ra => [rd, ra]
  | .shr1 rd ra => [rd, ra]
  | .mul rd ra rb => [rd, ra, rb]
  | .div quot rem ra rb => quot.toList ++ rem.toList ++ [ra, rb]
  | .powmod rd ra rb rc => [rd, ra, rb, rc]
  | .loadint rd => [rd]

/-- The operand registers a command reads (10_state.md R21). -/
def Instr.reads : Instr → List Nat
  | .clear _ => []
  | .copy _ ra => [ra]
  | .iszero ra => [ra]
  | .cmp ra rb => [ra, rb]
  | .getbit r _ => [r]
  | .setbit r _ _ => [r]
  | .add _ ra rb => [ra, rb]
  | .sub _ ra rb => [ra, rb]
  | .shl1 _ ra => [ra]
  | .shr1 _ ra => [ra]
  | .mul _ ra rb => [ra, rb]
  | .div _ _ ra rb => [ra, rb]
  | .powmod _ ra rb rc => [ra, rb, rc]
  | .loadint _ => []

/-- The operand registers a command writes when it does not raise an error (10_state.md R21). -/
def Instr.dests : Instr → List Nat
  | .clear rd => [rd]
  | .copy rd _ => [rd]
  | .iszero _ => []
  | .cmp _ _ => []
  | .getbit _ _ => []
  | .setbit r _ _ => [r]
  | .add rd _ _ => [rd]
  | .sub rd _ _ => [rd]
  | .shl1 rd _ => [rd]
  | .shr1 rd _ => [rd]
  | .mul rd _ _ => [rd]
  | .div quot rem _ _ => quot.toList ++ rem.toList
  | .powmod rd _ _ _ => [rd]
  | .loadint rd => [rd]

namespace Machine

/-- A pending outcome that a command can leave: staged values are W-bit values of registers that exist; a raised code
comes with no staged write (60_exceptions.md R223); NEGATIVE comes only in a TRAP_NEG build (00_scope.md R8). -/
abbrev Pending.Ok (b : Build) (p : Pending) : Prop :=
  (∀ x ∈ p.writes, x.1 < b.K ∧ x.2 < 2 ^ b.W) ∧
    (p.err.raised = true → p.writes = [] ∧ p.cmp = none ∧ p.bit = none ∧ p.zero = none) ∧
      (p.err = .negative → b.trapNeg = true)

/-- Every working register holds a value of its width (10_state.md R40). -/
abbrev Working.Ok (b : Build) (w : Working) : Prop :=
  w.limbAcc < 2 ^ b.accBits ∧ w.mulAcc < 2 ^ b.W ∧ w.mulX < 2 ^ b.W ∧ w.mulY < 2 ^ b.W ∧ w.divR < 2 ^ b.W ∧
    w.divQ < 2 ^ b.W ∧ w.powRes < 2 ^ b.W ∧ w.powBs < 2 ^ b.W ∧ w.powE < 2 ^ b.W

/-- The invariant: the build is one the spec admits (00_scope.md R10); there are exactly K operand registers of exactly W
bits (10_state.md R20); a pending outcome and the working registers are as above; ERR reads NEGATIVE only in a TRAP_NEG
build. -/
abbrev State.Inv (s : State) : Prop :=
  s.build.Valid ∧ s.regs.length = s.build.K ∧ (∀ v ∈ s.regs, v < 2 ^ s.build.W) ∧
    (∀ p ∈ s.pending, p.Ok s.build) ∧ s.work.Ok s.build ∧ (s.err = .negative → s.build.trapNeg = true)

/-- The block is idle in `s`, and the command issued there answers a next state in which it is pending and, but for the
working registers, nothing else has changed (00_scope.md R15); and the commit of that state is `t` (20_memory.md R56). -/
def RunsTo (i : Instr) (s t : State) : Prop :=
  s.busy = false ∧ ∃ p w, exec i s = .next { s with pending := some p, work := w } ∧
    State.commit { s with pending := some p, work := w } = t

/-- The event makes no access that the model refuses (20_memory.md R51, R54). -/
def Event.admitted (b : Build) : Event → Bool
  | .read width addr => (windowAccess b width addr).toBool
  | .write width addr _ => (windowAccess b width addr).toBool
  | .block => true
  | .reset _ _ => true

/-- `n` steps lead from `s` to `t`, each answering a next state. -/
def StepsTo : Nat → State → State → Prop
  | 0, s, t => s = t
  | n + 1, s, t => ∃ u, step s = .next u ∧ StepsTo n u t

/-- The value POWMOD's loop leaves in `res` (43_modexp.md R200), by recursion on the bits of the exponent still to come,
the least significant first: a set bit multiplies, and every bit squares the base. -/
def powValue (W c : Nat) : Nat → Nat → List Bool → Nat
  | res, _, [] => res
  | res, bs, bit :: rest =>
    powValue W c (if bit then res * bs % 2 ^ W % c else res) (bs * bs % 2 ^ W % c) rest

end Machine

end Sys2Proof
end

