-- ==== Sys2Proof/Certificates/Slice0/Obligations.lean ====
section
/-! DEFINITION. The statements about the model, each a `def Obligations.<Name> : Prop`; OBLIGATIONS.json lists them. The statements
about a command say, for every state that meets the invariant and is idle, that the command is issued and what state its
commit leaves: an equation of whole states, so everything it does not name is unchanged. Where a command uses working
registers, which no program can see (10_state.md R40), the equation says which of them may change. -/

open Sys2Proof Sys2Proof.Machine

/-! ### Encoding and decoding -/

/-- Every well-formed command is read back from its word, with every operand. -/
def Obligations.DecodeOfEncode : Prop :=
  ∀ i : Instr, i.wellFormed = true → decode (encode i) = .command i

/-- Each command has exactly one word: what decodes is well formed and encodes to the word it came from, so no bit of an
accepted word is ignored (30_encoding.md R88). -/
def Obligations.EncodeOfDecode : Prop :=
  ∀ (w : Word) (i : Instr), decode w = .command i → i.wellFormed = true ∧ encode i = w

/-- The worked encodings of 30_encoding.md R95: each word is the command it stands for. -/
def Obligations.SpecWordsDecode : Prop :=
  decode 0x00000301 = .command (.clear 3) ∧ decode 0x00002102 = .command (.copy 1 2) ∧
  decode 0x00005003 = .command (.iszero 5) ∧ decode 0x00010004 = .command (.cmp 0 1) ∧
  decode 0x003F0205 = .command (.getbit 2 63) ∧ decode 0x00111206 = .command (.setbit 2 17 true) ∧
  decode 0x00010207 = .command (.add 2 0 1) ∧ decode 0x00010208 = .command (.sub 2 0 1) ∧
  decode 0x00000009 = .command (.shl1 0 0) ∧ decode 0x0000340A = .command (.shr1 4 3) ∧
  decode 0x0001020B = .command (.mul 2 0 1) ∧ decode 0x0331020C = .command (.div (some 2) (some 3) 0 1) ∧
  decode 0x0231000C = .command (.div none (some 3) 0 1) ∧ decode 0x0021030D = .command (.powmod 3 0 1 2) ∧
  decode 0x0000070E = .command (.loadint 7)

/-- The mask and match columns of 30_encoding.md R87, by opcode. -/
def opcodeRows : List (Word × Word) :=
  [(0xFFFFF0FF, 0x00000001), (0xFFFF00FF, 0x00000002), (0xFFFF0FFF, 0x00000003), (0xFFF00FFF, 0x00000004),
   (0x0000F0FF, 0x00000005), (0x0000E0FF, 0x00000006), (0xFFF000FF, 0x00000007), (0xFFF000FF, 0x00000008),
   (0xFFFF00FF, 0x00000009), (0xFFFF00FF, 0x0000000A), (0xFFF000FF, 0x0000000B), (0xFC0000FF, 0x0000000C),
   (0xFF0000FF, 0x0000000D), (0xFFFFF0FF, 0x0000000E)]

/-- The decoder, which looks at the word alone, reads a command iff the word matches a row of R87 and, for DIV, its
disabled output fields are 0 (R85); it calls every other word ILLEGAL (R88, R89). The last check of R90, that a used
register field is below K (R86), is no part of it: the model makes that check when the command is executed (the model's
choice, log entry 15; RegisterFieldBeyondKIsIllegal), so a word that is read as a command here can still be ILLEGAL. -/
def Obligations.DecodeAcceptsExactlyTheRows : Prop :=
  ∀ w : Word, (∃ i, decode w = .command i) ↔
    ∃ row ∈ opcodeRows, w &&& row.1 = row.2 ∧
      (row.2 = 0x0000000C →
        (w.getLsbD 24 = false → w.extractLsb' 8 4 = 0#4) ∧ (w.getLsbD 25 = false → w.extractLsb' 20 4 = 0#4))

/-! ### Issue, commit and the handshake -/

/-- The host's write of a command word to CMD runs the decoded command on the state whose script has moved on. -/
def Obligations.StepRunsDecodedCommand : Prop :=
  ∀ (s : State) (w : Word) (i : Instr) (rest : List Event),
    s.script = cmdWrite s.build w :: rest → decode w = .command i → step s = exec i { s with script := rest }

/-- A word that decodes to no command is issued like any other: the block becomes busy and nothing else changes, and
the commit writes ERR = ILLEGAL and nothing else (60_exceptions.md R221). -/
def Obligations.MalformedWordReportsIllegal : Prop :=
  ∀ (s : State) (w : Word) (why : IllegalWord) (rest : List Event),
    s.script = cmdWrite s.build w :: rest → s.busy = false → decode w = .illegal why →
      ∃ p, step s = .next { s with script := rest, pending := some p } ∧
        State.commit { s with script := rest, pending := some p } = { s with script := rest, err := .illegal }

/-- A used register field at or beyond K makes every command ILLEGAL, before its own rule and whatever else it would
report (30_encoding.md R86, 60_exceptions.md R226). -/
def Obligations.RegisterFieldBeyondKIsIllegal : Prop :=
  ∀ (s : State) (i : Instr), s.busy = false → (∃ f ∈ i.uses, s.build.K ≤ f) → RunsTo i s { s with err := .illegal }

/-- Any word written to CMD while BUSY = 1 is dropped: LOST is set and nothing else changes (20_memory.md R55). -/
def Obligations.WordWhileBusyIsDropped : Prop :=
  ∀ (s : State) (w : Word) (rest : List Event),
    s.script = cmdWrite s.build w :: rest → s.busy = true → step s = .next { s with script := rest, lost := true }

/-- While a command is pending, the block's turn applies the staged writes, ERR and the staged result fields, and clears
BUSY, in one step (20_memory.md R56). When the block is idle its turn changes nothing (60_exceptions.md R237). That a step
with no event left is the block's turn too is the model's choice (log entry 7). -/
def Obligations.BlockTurnCommitsPending : Prop :=
  ∀ (s : State) (rest : List Event), (s.script = .block :: rest ∨ s.script = [] ∧ rest = []) →
    (∀ p, s.pending = some p →
      step s = .next
        { s with
          script := rest
          regs := p.writes.foldl (fun rs x => rs.set x.1 x.2) s.regs
          err := p.err
          cmp := p.cmp.getD s.cmp
          bit := p.bit.getD s.bit
          zero := p.zero.getD s.zero
          pending := none }) ∧
    (s.busy = false → step s = .next { s with script := rest })

/-- No host access touches a pending command or what its commit will change: registers, ERR, CMP, BIT and ZERO keep
their values from before the issue, until the block's turn or a reset (20_memory.md R64 (b), 70_reset_and_hazards.md R256). -/
def Obligations.HostCannotDisturbPendingCommand : Prop :=
  ∀ (s t : State) (e : Event),
    s.busy = true → e ≠ .block → (∀ regs work, e ≠ .reset regs work) → react e s = .next t →
      t.pending = s.pending ∧ t.regs = s.regs ∧ t.err = s.err ∧ t.cmp = s.cmp ∧ t.bit = s.bit ∧ t.zero = s.zero ∧
        t.work = s.work

/-- Every issued command commits after finitely many steps unless a reset intervenes (70_reset_and_hazards.md R263). Let the
accesses that the script still holds all be admitted. A pending command whose script holds no reset is committed within one
step more than the script has events: the staged writes, ERR and the staged result fields of the very outcome that is
pending have then been applied to the state as it is now. And with or without resets, that many steps in all leave the
block idle with no event left. That the block's turn comes when the script is used up is the model's choice (log entry 7). -/
def Obligations.EveryCommandEventuallyCommits : Prop :=
  ∀ s : State, (∀ e ∈ s.script, e.admitted s.build = true) →
    (∀ p, s.pending = some p → (∀ regs work, Event.reset regs work ∉ s.script) →
      ∃ (k : Nat) (t : State), k ≤ s.script.length + 1 ∧ StepsTo k s t ∧ t.pending = none ∧
        t.regs = p.writes.foldl (fun rs x => rs.set x.1 x.2) s.regs ∧ t.err = p.err ∧
        t.cmp = p.cmp.getD s.cmp ∧ t.bit = p.bit.getD s.bit ∧ t.zero = p.zero.getD s.zero) ∧
    ∃ t : State, StepsTo (s.script.length + 1) s t ∧ t.busy = false ∧ t.script = []

/-! ### The host window -/

/-- The value of a window register as 20_memory.md R52 lays it out, written as a sum of fields at their bit places. -/
def windowValue (s : State) : WindowReg → Nat
  | .config => s.build.N + s.build.L * 2 ^ 16 + (s.build.K - 1) * 2 ^ 24 + s.build.trapNeg.toNat * 2 ^ 28
  | .reserved => 0
  | .status =>
    s.err.code.toNat + s.cmp.code.toNat * 2 ^ 4 + s.bit.toNat * 2 ^ 6 + s.zero.toNat * 2 ^ 7 + s.busy.toNat * 2 ^ 8 +
      s.lost.toNat * 2 ^ 9
  | .cmd => 0
  | .dataLo => s.dataLo.toNat
  | .dataHi => s.dataHi.toNat
  | .limbSel => s.limbSelReg.toNat + s.limbSelLimb.toNat * 2 ^ 16
  | .limbData =>
    if s.limbSelReg.toNat < s.build.K ∧ s.limbSelLimb.toNat < s.build.N then
      s.reg s.limbSelReg.toNat / 2 ^ (s.build.L * s.limbSelLimb.toNat) % 2 ^ s.build.L
    else 0

/-- The window offset of each register (20_memory.md R50). -/
def windowOffset : WindowReg → Nat
  | .config => 0x00
  | .reserved => 0x04
  | .status => 0x08
  | .cmd => 0x0C
  | .dataLo => 0x10
  | .dataHi => 0x14
  | .limbSel => 0x18
  | .limbData => 0x1C

/-- A host read of any of the eight registers gives the host that register's value and changes nothing (R52). -/
def Obligations.HostReadReturnsRegister : Prop :=
  ∀ (s : State) (r : WindowReg) (rest : List Event),
    s.Inv → s.script = .read .word (s.build.windowBase + windowOffset r) :: rest →
      ∃ x : Word, step s = .next { s with script := rest, received := s.received ++ [x] } ∧ x.toNat = windowValue s r

/-- A host write to a register does what R53 says and nothing else: to CMD it issues the word, to any other register it
changes that register alone, at any time, a pending command or not. -/
def Obligations.HostWriteChangesOnlyItsRegister : Prop :=
  ∀ (s : State) (v : Word) (r : WindowReg) (rest : List Event),
    s.script = .write .word (s.build.windowBase + windowOffset r) v :: rest →
      step s =
        match r with
        | .cmd => issueWord v { s with script := rest }
        | .status => .next { s with script := rest, lost := s.lost && !v.getLsbD 9 }
        | .dataLo => .next { s with script := rest, dataLo := v }
        | .dataHi => .next { s with script := rest, dataHi := v }
        | .limbSel =>
          .next
            { s with
              script := rest
              limbSelReg := BitVec.ofNat 4 (v.toNat % 2 ^ 4)
              limbSelLimb := BitVec.ofNat 16 (v.toNat / 2 ^ 16) }
        | .config | .reserved | .limbData => .next { s with script := rest }

/-- An access that is not 32 bits wide, or misaligned, or outside the window is refused, read or write, and no other is
(20_memory.md R54, R51). -/
def Obligations.OnlyAlignedWordAccessesAreAdmitted : Prop :=
  ∀ (s : State) (width : Width) (addr : Nat) (v : Word),
    ((∃ t, react (.read width addr) s = .next t) ↔
      width = .word ∧ s.build.windowBase ≤ addr ∧ addr < s.build.windowBase + 32 ∧ 4 ∣ addr - s.build.windowBase) ∧
    ((∃ t, react (.write width addr v) s = .next t) ↔
      width = .word ∧ s.build.windowBase ≤ addr ∧ addr < s.build.windowBase + 32 ∧ 4 ∣ addr - s.build.windowBase) ∧
    (∀ t, react (.read width addr) s ≠ .fault t) ∧ (∀ t, react (.write width addr v) s ≠ .fault t)

/-- Reading the N limbs of a register through LIMB_SEL and LIMB_DATA, with no commit in between, gives its value:
limb j at weight 2^(L*j) (20_memory.md R57). -/
def Obligations.LimbReadsGiveWholeOperand : Prop :=
  ∀ (s : State) (r : Nat), s.Inv → r < s.build.K →
    ((List.range s.build.N).map fun j =>
      (State.limbData { s with limbSelReg := BitVec.ofNat 4 r, limbSelLimb := BitVec.ofNat 16 j }).toNat *
        2 ^ (s.build.L * j)).sum = s.reg r

/-- Byte k of a window register lies at offset `off + k` and holds bits 8k+7 : 8k (20_memory.md R58). -/
def Obligations.ByteLanesAreLittleEndian : Prop :=
  ∀ (s : State) (r : WindowReg),
    ∃ b0 b1 b2 b3 : BitVec 8,
      s.laneByte (windowOffset r) = some b0 ∧ s.laneByte (windowOffset r + 1) = some b1 ∧
      s.laneByte (windowOffset r + 2) = some b2 ∧ s.laneByte (windowOffset r + 3) = some b3 ∧
      (s.hostRead r).toNat = b0.toNat + b1.toNat * 2 ^ 8 + b2.toNat * 2 ^ 16 + b3.toNat * 2 ^ 24

/-! ### Reset -/

/-- Reset, in any state (70_reset_and_hazards.md R250): a pending command is discarded and every field gets the value the
rule states; the build and the host's side stay; there are K operand registers of W bits. Their values, and those of the
working registers, are unspecified: every choice of them is what some reset event leaves (93_implementation_defined.md I1). -/
def Obligations.ResetEventClearsTheBlock : Prop :=
  (∀ (s : State) (regs : List Nat) (work : Working) (rest : List Event),
    s.script = .reset regs work :: rest →
      ∃ t, step s = .next t ∧ t.pending = none ∧ t.busy = false ∧ t.err = .ok ∧ t.cmp = .equal ∧ t.bit = false ∧
        t.zero = false ∧ t.lost = false ∧ t.dataLo = 0 ∧ t.dataHi = 0 ∧ t.limbSelReg = 0 ∧ t.limbSelLimb = 0 ∧
        t.build = s.build ∧ t.script = rest ∧ t.received = s.received ∧ t.regs.length = s.build.K ∧
        (∀ v ∈ t.regs, v < 2 ^ s.build.W)) ∧
  (∀ (s : State) (regs : List Nat) (work : Working),
    regs.length = s.build.K → (∀ v ∈ regs, v < 2 ^ s.build.W) → work.Ok s.build →
      ∃ e, react e s = .next { State.resetOf s.build regs work with script := s.script, received := s.received })

/-- What the host reads of the state after reset, in the reference build: CONFIG is 0x07100004 and the other registers,
LIMB_DATA apart, read 0. It rests on no value of an operand register. -/
def Obligations.ResetStateReadsAsStated : Prop :=
  ∀ (regs : List Nat) (work : Working),
    let s := State.resetOf Config.reference regs work
    s.hostRead .config = 0x07100004 ∧ s.hostRead .reserved = 0 ∧ s.hostRead .status = 0 ∧ s.hostRead .cmd = 0 ∧
      s.hostRead .dataLo = 0 ∧ s.hostRead .dataHi = 0 ∧ s.hostRead .limbSel = 0 ∧ s.busy = false

/-! ### Invariants of every step -/

/-- The invariant holds after reset, in every build the spec admits and for all values of the registers the spec leaves
unspecified; `State.reset`, with the model's own values for them (log entries 1, 2, 4 and 5), is one case. -/
def Obligations.ResetMeetsInvariant : Prop :=
  (∀ (b : Build) (regs : List Nat) (work : Working), b.Valid → regs.length = b.K → (∀ v ∈ regs, v < 2 ^ b.W) →
    work.Ok b → (State.resetOf b regs work).Inv) ∧ State.reset.Inv

/-- Every step from a state that meets the invariant ends in one that meets it: always K registers of W bits. -/
def Obligations.StepKeepsInvariant : Prop :=
  ∀ s t : State, s.Inv → step s = .next t → t.Inv

/-- CONFIG is a constant of the build: no step changes a build parameter (10_state.md R31). -/
def Obligations.StepKeepsBuild : Prop :=
  ∀ s t : State, step s = .next t → t.build = s.build ∧ t.hostRead .config = s.hostRead .config

/-- Only a commit or a reset changes an operand register; no host access does, the issue of a command included
(10_state.md R21). -/
def Obligations.OnlyCommitOrResetWritesRegisters : Prop :=
  ∀ s t : State, step s = .next t → t.regs ≠ s.regs →
    (s.busy = true ∧ (s.script = [] ∨ s.script.head? = some .block)) ∨
      ∃ regs work, s.script.head? = some (.reset regs work)

/-- LOST over every step (10_state.md R29): a host write to CMD sets it if the block is busy, a host write to STATUS with
bit 9 set clears it, a reset clears it, and nothing else changes it, a commit included. -/
def Obligations.LostFollowsItsRule : Prop :=
  ∀ s t : State, step s = .next t →
    (∀ w, s.script.head? = some (.write .word (s.build.windowBase + 0x0C) w) → t.lost = (s.lost || s.busy)) ∧
    (∀ v, s.script.head? = some (.write .word (s.build.windowBase + 0x08) v) → t.lost = (s.lost && !v.getLsbD 9)) ∧
    (∀ regs work, s.script.head? = some (.reset regs work) → t.lost = false) ∧
    (t.lost ≠ s.lost →
      (∃ w, s.script.head? = some (.write .word (s.build.windowBase + 0x0C) w)) ∨
        (∃ v, s.script.head? = some (.write .word (s.build.windowBase + 0x08) v)) ∨
          ∃ regs work, s.script.head? = some (.reset regs work))

/-! ### Rules for every command -/

/-- Which result fields a command's commit writes: CMP only by a successful CMP, BIT only by a successful GETBIT, ZERO
only by a successful ISZERO (10_state.md R36). -/
def Obligations.ResultFieldsHaveOneWriter : Prop :=
  ∀ (i : Instr) (s t : State), RunsTo i s t →
    (t.cmp ≠ s.cmp → (∃ ra rb, i = .cmp ra rb) ∧ t.err = .ok) ∧
    (t.bit ≠ s.bit → (∃ r idx, i = .getbit r idx) ∧ t.err = .ok) ∧
    (t.zero ≠ s.zero → (∃ ra, i = .iszero ra) ∧ t.err = .ok)

/-- A command that raises an error writes ERR and nothing else at all (60_exceptions.md R223). -/
def Obligations.RaisedErrorWritesOnlyErr : Prop :=
  ∀ (i : Instr) (s t : State), RunsTo i s t → t.err.raised = true → t = { s with err := t.err }

/-- A command's commit writes no operand register but the destinations 10_state.md R21 gives it, and nothing the host
writes: DATA, LIMB_SEL, LOST, the build. -/
def Obligations.CommandWritesOnlyItsDestinations : Prop :=
  ∀ (i : Instr) (s t : State), RunsTo i s t →
    (∀ r, r ∉ i.dests → t.reg r = s.reg r) ∧ t.regs.length = s.regs.length ∧ t.dataLo = s.dataLo ∧
      t.dataHi = s.dataHi ∧ t.limbSelReg = s.limbSelReg ∧ t.limbSelLimb = s.limbSelLimb ∧ t.lost = s.lost ∧
      t.build = s.build

/-- What a command does depends on no operand register but those it reads (10_state.md R21): two states that agree on
them, on DATA and on the build, agree on its ERR, on every destination it writes, and on the result fields if they
agreed before. DATA matters to LOADINT alone. -/
def Obligations.CommandDependsOnlyOnWhatItReads : Prop :=
  ∀ (i : Instr) (s t s' t' : State), s.Inv → t.Inv → s.build = t.build →
    (∀ r ∈ i.reads, s.reg r = t.reg r) →
    ((∃ rd, i = .loadint rd) → s.dataLo = t.dataLo ∧ s.dataHi = t.dataHi) →
    RunsTo i s s' → RunsTo i t t' →
      s'.err = t'.err ∧ (∀ r ∈ i.dests, s'.err.raised = false → s'.reg r = t'.reg r) ∧
      (s.cmp = t.cmp → s'.cmp = t'.cmp) ∧ (s.bit = t.bit → s'.bit = t'.bit) ∧ (s.zero = t.zero → s'.zero = t'.zero)

/-- Defined registers (70_reset_and_hazards.md R252): let two states, of one build and one DATA, agree on the registers of `D`
(whatever a reset left in the others). After the same command they agree on every register of `D` that it does not
write, and, if it reads only registers of `D`, on the destinations it writes too. -/
def Obligations.DefinedRegistersStayDefined : Prop :=
  ∀ (D : List Nat) (i : Instr) (s t s' t' : State), s.Inv → t.Inv → s.build = t.build →
    s.dataLo = t.dataLo → s.dataHi = t.dataHi → (∀ r ∈ D, s.reg r = t.reg r) →
    RunsTo i s s' → RunsTo i t t' →
      (∀ r ∈ D, r ∉ i.dests → s'.reg r = t'.reg r) ∧
      ((∀ r ∈ i.reads, r ∈ D) →
        s'.err = t'.err ∧ (∀ r ∈ D, s'.reg r = t'.reg r) ∧
          (s'.err.raised = false → ∀ r ∈ i.dests, s'.reg r = t'.reg r))

/-- No program can observe a working register (10_state.md R40): states that differ only in them step to states that
differ only in them, or are refused alike; in particular every word the host reads is the same. -/
def Obligations.WorkingRegistersAreUnobservable : Prop :=
  ∀ (s : State) (w : Working),
    (∀ t, step s = .next t → ∃ w', step { s with work := w } = .next { t with work := w' }) ∧
    (∀ why, step s = .refused why → step { s with work := w } = .refused why)

/-- The accumulator's width changes no result (00_scope.md R6): builds that differ only in ACC_BITS, both of at least L+1
bits, commit the same registers and status. -/
def Obligations.AccumulatorWidthChangesNoResult : Prop :=
  ∀ (i : Instr) (s s' : State) (n : Nat), s.Inv → s.build.L + 1 ≤ n → RunsTo i s s' →
    ∃ w, RunsTo i { s with build := { s.build with accBits := n } }
      { s' with build := { s.build with accBits := n }, work := w }

/-! ### Storage primitives -/

/-- CLEAR gives 0 (40_storage.md R111). -/
def Obligations.ClearWritesZero : Prop :=
  ∀ (s : State) (rd : Nat), s.busy = false → rd < s.build.K →
    RunsTo (.clear rd) s { s with regs := s.regs.set rd 0, err := .ok }

/-- COPY gives the source's value, also onto itself (40_storage.md R112). -/
def Obligations.CopyWritesSource : Prop :=
  ∀ (s : State) (rd ra : Nat), s.busy = false → rd < s.build.K → ra < s.build.K →
    RunsTo (.copy rd ra) s { s with regs := s.regs.set rd (s.reg ra), err := .ok }

/-- ISZERO sets ZERO iff the operand's value is 0 (40_storage.md R113). -/
def Obligations.IszeroTestsWholeValue : Prop :=
  ∀ (s : State) (ra : Nat), s.Inv → s.busy = false → ra < s.build.K →
    RunsTo (.iszero ra) s { s with zero := decide (s.reg ra = 0), err := .ok }

/-- CMP gives the unsigned order of the values (40_storage.md R114). -/
def Obligations.CmpGivesUnsignedOrder : Prop :=
  ∀ (s : State) (ra rb : Nat), s.Inv → s.busy = false → ra < s.build.K → rb < s.build.K →
    RunsTo (.cmp ra rb) s
      { s with
        cmp := if s.reg ra = s.reg rb then .equal else if s.reg rb < s.reg ra then .greater else .less
        err := .ok }

/-- GETBIT gives bit `idx` of the value, and BOUNDS exactly at or beyond W (40_storage.md R115). -/
def Obligations.GetbitReadsBitOrReportsBounds : Prop :=
  ∀ (s : State) (r idx : Nat), s.Inv → s.busy = false → r < s.build.K →
    RunsTo (.getbit r idx) s
      (if s.build.W ≤ idx then { s with err := .bounds } else { s with bit := (s.reg r).testBit idx, err := .ok })

/-- SETBIT writes bit `idx` and keeps every other bit, and reports BOUNDS exactly at or beyond W, writing nothing
(40_storage.md R116). -/
def Obligations.SetbitWritesOneBitOrReportsBounds : Prop :=
  ∀ (s : State) (r idx : Nat) (val : Bool), s.Inv → s.busy = false → r < s.build.K →
    if s.build.W ≤ idx then RunsTo (.setbit r idx val) s { s with err := .bounds }
    else ∃ v, RunsTo (.setbit r idx val) s { s with regs := s.regs.set r v, err := .ok } ∧
      ∀ j, v.testBit j = if j = idx then val else (s.reg r).testBit j

/-! ### Linear arithmetic -/

/-- In the carry chain every accumulator is at most 2^(L+1) - 1 and every carry is 0 or 1, and the chain gives the sum
mod 2^W and the carry-out (41_linear.md R140, R141). -/
def Obligations.CarryChainRangeAndResult : Prop :=
  ∀ (b : Build) (x y : Nat), b.Valid → x < 2 ^ b.W → y < 2 ^ b.W →
    (∀ j, (addChain b x y j).acc ≤ 2 ^ (b.L + 1) - 1 ∧ (addChain b x y j).carry ≤ 1) ∧
      (addChain b x y b.N).low = (x + y) % 2 ^ b.W ∧ (addChain b x y b.N).carry = (x + y) / 2 ^ b.W

/-- In the borrow chain every accumulator lies in [-2^L, 2^L - 1] and every borrow is 0 or -1, and the chain gives the
difference mod 2^W and a borrow-out of -1 exactly when x < y (41_linear.md R142, R143). -/
def Obligations.BorrowChainRangeAndResult : Prop :=
  ∀ (b : Build) (x y : Nat), b.Valid → x < 2 ^ b.W → y < 2 ^ b.W →
    (∀ j, -(2 : Int) ^ b.L ≤ (subChain b x y j).acc ∧ (subChain b x y j).acc ≤ 2 ^ b.L - 1 ∧
      ((subChain b x y j).borrow = 0 ∨ (subChain b x y j).borrow = -1)) ∧
      ((subChain b x y b.N).low : Int) = ((x : Int) - y) % 2 ^ b.W ∧
      (subChain b x y b.N).borrow = if x < y then -1 else 0

/-- ADD writes the sum mod 2^W, and reports OVERFLOW iff the exact sum reaches 2^W (41_linear.md R144). What it says of the
working registers, that the carry holds the carry-out and that only the limb accumulator and the carry change, is the
model's reading of R40 (DEDUCED, log entry 3), not R144's. -/
def Obligations.AddWritesSumAndReportsOverflow : Prop :=
  ∀ (s : State) (rd ra rb : Nat), s.Inv → s.busy = false → rd < s.build.K → ra < s.build.K → rb < s.build.K →
    ∃ acc, RunsTo (.add rd ra rb) s
      { s with
        regs := s.regs.set rd ((s.reg ra + s.reg rb) % 2 ^ s.build.W)
        err := if 2 ^ s.build.W ≤ s.reg ra + s.reg rb then .overflow else .ok
        work := { s.work with limbAcc := acc, carry := decide (2 ^ s.build.W ≤ s.reg ra + s.reg rb) } }

/-- SUB writes the difference mod 2^W, and reports NEGATIVE iff a < b in a TRAP_NEG build; without TRAP_NEG a borrow is no error
(41_linear.md R145). What it says of the working registers, that the borrow holds a < b and that only the limb accumulator and
the borrow change, is the model's reading of R40 (DEDUCED, log entry 3), not R145's. -/
def Obligations.SubWritesDifferenceAndReportsNegative : Prop :=
  ∀ (s : State) (rd ra rb : Nat), s.Inv → s.busy = false → rd < s.build.K → ra < s.build.K → rb < s.build.K →
    ∃ acc, RunsTo (.sub rd ra rb) s
      { s with
        regs := s.regs.set rd (((s.reg ra : Int) - s.reg rb) % 2 ^ s.build.W).toNat
        err := if s.reg ra < s.reg rb ∧ s.build.trapNeg = true then .negative else .ok
        work := { s.work with limbAcc := acc, carry := decide (s.reg ra < s.reg rb) } }

/-- SHL1 writes 2a mod 2^W, in place or not, with no error (41_linear.md R146). -/
def Obligations.ShlOneDoublesModulo : Prop :=
  ∀ (s : State) (rd ra : Nat), s.Inv → s.busy = false → rd < s.build.K → ra < s.build.K →
    RunsTo (.shl1 rd ra) s { s with regs := s.regs.set rd (2 * s.reg ra % 2 ^ s.build.W), err := .ok }

/-- SHR1 writes a div 2, in place or not, with no error (41_linear.md R147). -/
def Obligations.ShrOneHalves : Prop :=
  ∀ (s : State) (rd ra : Nat), s.Inv → s.busy = false → rd < s.build.K → ra < s.build.K →
    RunsTo (.shr1 rd ra) s { s with regs := s.regs.set rd (s.reg ra / 2), err := .ok }

/-! ### Composite arithmetic -/

/-- MUL's loop invariant (42_composite.md R172): after `t` passes `x = a >> t`, `y = (b * 2^t) mod 2^W` and
`acc = (b * (a mod 2^t)) mod 2^W`; on a W-bit `a` the loop makes bitlength(a) passes and leaves the product mod 2^W. -/
def Obligations.MultiplierInvariantAndResult : Prop :=
  ∀ (W a b : Nat) (w : Working), a < 2 ^ W → b < 2 ^ W →
    let start : Working := { w with mulAcc := 0, mulX := a, mulY := b }
    (∀ t, ((mulPass W)^[t] start).mulX = a >>> t ∧ ((mulPass W)^[t] start).mulY = b * 2 ^ t % 2 ^ W ∧
      ((mulPass W)^[t] start).mulAcc = b * (a % 2 ^ t) % 2 ^ W) ∧
    multiply W a b w = (mulPass W)^[Nat.size a] start ∧ (multiply W a b w).mulAcc = a * b % 2 ^ W

/-- MUL writes the product mod 2^W with no error, or raises ALIAS, writing nothing, when its destination names a source
(42_composite.md R170). What it says of the working registers, that only MUL's own change and the limb accumulator and its
carry stay, is the model's reading of R40 (DEDUCED, log entries 3 and 17), not R170's. -/
def Obligations.MulWritesProductOrReportsAlias : Prop :=
  ∀ (s : State) (rd ra rb : Nat), s.Inv → s.busy = false → rd < s.build.K → ra < s.build.K → rb < s.build.K →
    if rd = ra ∨ rd = rb then RunsTo (.mul rd ra rb) s { s with err := .alias_ }
    else ∃ acc x y, RunsTo (.mul rd ra rb) s
      { s with
        regs := s.regs.set rd (s.reg ra * s.reg rb % 2 ^ s.build.W)
        err := .ok
        work := { s.work with mulAcc := acc, mulX := x, mulY := y } }

/-- DIV's loop, for a non-zero divisor and a W-bit numerator (42_composite.md R176, R178): once the bits from `i` up are
done, `R = (a >> i) mod b <= a >> i < 2^(W-i)` and `Q = ((a >> i) div b) << i`; and if another bit follows, `R < 2^(W-1)`
and its shift loses nothing. At `i = 0` these are the quotient and the remainder. -/
def Obligations.DividerInvariant : Prop :=
  ∀ (W a b i : Nat) (w : Working), 0 < b → b < 2 ^ W → a < 2 ^ W → i ≤ W →
    let v := (List.range (W - i)).foldl (fun v k => divPass W a b (W - 1 - k) v) { w with divR := 0, divQ := 0 }
    v.divR = a >>> i % b ∧ v.divQ = (a >>> i / b) <<< i ∧ v.divR ≤ a >>> i ∧ a >>> i < 2 ^ (W - i) ∧
      (0 < i → v.divR < 2 ^ (W - 1) ∧ (v.divR <<< 1) % 2 ^ W = 2 * v.divR) ∧
      (i = 0 → divide W a b w = v ∧ v.divQ = a / b ∧ v.divR = a % b)

/-- DIV, every form: ALIAS for one register as both enabled outputs, before DIVZERO for a zero divisor, both writing
nothing; else the enabled outputs get the exact quotient and remainder, and there is no error (42_composite.md R175). What it
says of the working registers, that only R and Q change and the limb accumulator and its borrow stay, is the model's reading
of R40 (DEDUCED, log entries 3 and 17), not R175's. -/
def Obligations.DivWritesQuotientAndRemainder : Prop :=
  ∀ (s : State) (quot rem : Option Nat) (ra rb : Nat), s.Inv → s.busy = false →
    (∀ q ∈ quot, q < s.build.K) → (∀ r ∈ rem, r < s.build.K) → ra < s.build.K → rb < s.build.K →
    if (∃ q, quot = some q ∧ rem = some q) then RunsTo (.div quot rem ra rb) s { s with err := .alias_ }
    else if s.reg rb = 0 then RunsTo (.div quot rem ra rb) s { s with err := .divzero }
    else
      let withQ := match quot with
        | some q => s.regs.set q (s.reg ra / s.reg rb)
        | none => s.regs
      let withQR := match rem with
        | some r => withQ.set r (s.reg ra % s.reg rb)
        | none => withQ
      ∃ R Q, RunsTo (.div quot rem ra rb) s
        { s with regs := withQR, err := .ok, work := { s.work with divR := R, divQ := Q } }

/-- LOADINT writes DATA mod 2^W, and reports OVERFLOW iff DATA reaches 2^W (42_composite.md R186). -/
def Obligations.LoadintWritesDataAndReportsOverflow : Prop :=
  ∀ (s : State) (rd : Nat), s.Inv → s.busy = false → rd < s.build.K →
    let v := s.dataHi.toNat * 2 ^ 32 + s.dataLo.toNat
    RunsTo (.loadint rd) s
      { s with
        regs := s.regs.set rd (v % 2 ^ s.build.W)
        err := if 2 ^ s.build.W ≤ v then .overflow else .ok }

/-! ### Modular exponentiation -/

/-- POWMOD writes the value of the square-and-multiply loop over the exponent's bits, with the multiplication wrapping mod 2^W,
whatever registers its fields name; a zero modulus raises DIVZERO and writes nothing (43_modexp.md R200).
That the limb accumulator and its carry stay is the model's reading of R40 (DEDUCED, log entries 3 and 17), not R200's. -/
def Obligations.PowmodComputesTheLoopValue : Prop :=
  ∀ (s : State) (rd ra rb rc : Nat), s.Inv → s.busy = false →
    rd < s.build.K → ra < s.build.K → rb < s.build.K → rc < s.build.K →
    if s.reg rc = 0 then RunsTo (.powmod rd ra rb rc) s { s with err := .divzero }
    else ∃ w : Working, w.limbAcc = s.work.limbAcc ∧ w.carry = s.work.carry ∧
      RunsTo (.powmod rd ra rb rc) s
        { s with
          regs := s.regs.set rd (powValue s.build.W (s.reg rc) 1 (s.reg ra) (Nat.bits (s.reg rb)))
          err := .ok
          work := w }

/-- POWMOD is exact modular exponentiation under the conditions of 43_modexp.md R201; the two examples of that rule, in
64 bits, show that it is not so in general. That the limb accumulator and its carry stay is the model's reading of R40
(DEDUCED, log entries 3 and 17), not R201's. -/
def Obligations.PowmodIsExactUnderItsConditions : Prop :=
  (∀ (s : State) (rd ra rb rc : Nat), s.Inv → s.busy = false →
    rd < s.build.K → ra < s.build.K → rb < s.build.K → rc < s.build.K → s.reg rc ≠ 0 →
    (s.reg rb = 1 ∨ s.reg rb = 0 ∧ 2 ≤ s.reg rc ∨
      2 ≤ s.reg rb ∧ s.reg ra < 2 ^ (s.build.W / 2) ∧ s.reg rc ≤ 2 ^ (s.build.W / 2)) →
    ∃ w : Working, w.limbAcc = s.work.limbAcc ∧ w.carry = s.work.carry ∧
      RunsTo (.powmod rd ra rb rc) s
        { s with regs := s.regs.set rd (s.reg ra ^ s.reg rb % s.reg rc), err := .ok, work := w }) ∧
  (powMod 64 (2 ^ 32) 2 (2 ^ 63 + 1) Working.zeros).powRes = 0 ∧ (2 ^ 32) ^ 2 % (2 ^ 63 + 1) = 2 ^ 63 - 1 ∧
  ∀ a, (powMod 64 a 0 1 Working.zeros).powRes = 1
end

