-- ==== Sys2Proof/Laws/Decode.lean ====
section
/-! SUPPORT. The mask check of 30_encoding.md R90 in arithmetic: every mask of R87 is a low block of ones and one higher
block, so `w & mask = match` says what two fields of the word are. And the fields of a word of each format. -/

namespace Sys2Proof

/-- A mask that is `p` low ones and `len` ones from bit `lo` keeps those two fields. -/
theorem and_two_blocks (n : Nat) {p lo len : Nat} (h : p ≤ lo) :
    n &&& (2 ^ p - 1 + (2 ^ len - 1) * 2 ^ lo) = n % 2 ^ p + n / 2 ^ lo % 2 ^ len * 2 ^ lo := by
  have hp : 2 ^ p - 1 < 2 ^ lo :=
    lt_of_lt_of_le (Nat.sub_lt (Nat.two_pow_pos _) (by norm_num)) (Nat.pow_le_pow_right (by norm_num) h)
  have hq : n % 2 ^ p < 2 ^ lo :=
    lt_of_lt_of_le (Nat.mod_lt _ (Nat.two_pow_pos _)) (Nat.pow_le_pow_right (by norm_num) h)
  rw [Nat.add_comm (2 ^ p - 1), Nat.add_comm (n % 2 ^ p), ← Nat.shiftLeft_eq, ← Nat.shiftLeft_eq,
    Nat.shiftLeft_add_eq_or_of_lt hp, Nat.shiftLeft_add_eq_or_of_lt hq]
  refine Nat.eq_of_testBit_eq fun i => ?_
  simp only [Nat.testBit_and, Nat.testBit_or, Nat.testBit_shiftLeft, Nat.testBit_two_pow_sub_one,
    Nat.testBit_mod_two_pow, Nat.testBit_div_two_pow]
  by_cases hi : lo ≤ i
  · have : ¬i < p := by omega
    simp [hi, this, Bool.and_comm]
  · simp [hi, Bool.and_comm]

/-- The mask check of R90 as a statement about the word's fields. -/
theorem and_mask_eq_iff (w mask pattern : Word) (p lo len : Nat) (h : p ≤ lo)
    (hm : mask.toNat = 2 ^ p - 1 + (2 ^ len - 1) * 2 ^ lo) :
    w &&& mask = pattern ↔ w.toNat % 2 ^ p + w.toNat / 2 ^ lo % 2 ^ len * 2 ^ lo = pattern.toNat := by
  rw [← BitVec.toNat_inj, BitVec.toNat_and, hm, and_two_blocks _ h]

theorem strict_eq_command_iff (w mask pattern : Word) (i j : Instr) :
    strict w mask pattern i = .command j ↔ w &&& mask = pattern ∧ i = j := by
  unfold strict; split <;> simp_all

/-- The value of a field. -/
theorem bits_eq (w : Word) (hi lo : Nat) : bits w hi lo = w.toNat / 2 ^ lo % 2 ^ (hi - lo + 1) := by
  rw [bits, Nat.shiftRight_eq_div_pow]

/-- A one-bit field as a number. -/
theorem flag_toNat (w : Word) (i : Nat) : (flag w i).toNat = w.toNat / 2 ^ i % 2 := by
  rw [flag, BitVec.getLsbD, Nat.toNat_testBit]

/-- A word of format R as a number, when every field fits its place (R81). -/
theorem formatR_toNat {op rd ra rb rc : Nat} {qen ren : Bool} (hop : op < 256) (hd : rd < 16) (ha : ra < 16)
    (hb : rb < 16) (hc : rc < 16) :
    (formatR op rd ra rb rc qen ren).toNat =
      op + rd * 2 ^ 8 + ra * 2 ^ 12 + rb * 2 ^ 16 + rc * 2 ^ 20 + qen.toNat * 2 ^ 24 + ren.toNat * 2 ^ 25 := by
  have := Bool.toNat_le qen
  have := Bool.toNat_le ren
  rw [formatR, BitVec.toNat_ofNat, Nat.mod_eq_of_lt (by omega)]

/-- A word of format B as a number, when every field fits its place (R82). -/
theorem formatB_toNat {op r idx : Nat} {val : Bool} (hop : op < 256) (hr : r < 16) (hi : idx < 65536) :
    (formatB op r idx val).toNat = op + r * 2 ^ 8 + val.toNat * 2 ^ 12 + idx * 2 ^ 16 := by
  have := Bool.toNat_le val
  rw [formatB, BitVec.toNat_ofNat, Nat.mod_eq_of_lt (by omega)]

end Sys2Proof
end

