-- ==== Sys2Proof/Laws/State.lean ====
section
/-! SUPPORT. Field by field, what the three updates of State do: issue, commit, and the reset event; so that no proof unfolds a
record update to read a field of its result. -/

namespace Sys2Proof.Machine

/-! ### Issue (20_memory.md R55): only LOST, the pending outcome and the working registers can change -/

@[simp] theorem State.issue_build (s : State) (x : Execution) : (s.issue x).build = s.build := by
  unfold State.issue; split <;> rfl

@[simp] theorem State.issue_regs (s : State) (x : Execution) : (s.issue x).regs = s.regs := by
  unfold State.issue; split <;> rfl

@[simp] theorem State.issue_err (s : State) (x : Execution) : (s.issue x).err = s.err := by
  unfold State.issue; split <;> rfl

@[simp] theorem State.issue_cmp (s : State) (x : Execution) : (s.issue x).cmp = s.cmp := by
  unfold State.issue; split <;> rfl

@[simp] theorem State.issue_bit (s : State) (x : Execution) : (s.issue x).bit = s.bit := by
  unfold State.issue; split <;> rfl

@[simp] theorem State.issue_zero (s : State) (x : Execution) : (s.issue x).zero = s.zero := by
  unfold State.issue; split <;> rfl

@[simp] theorem State.issue_dataLo (s : State) (x : Execution) : (s.issue x).dataLo = s.dataLo := by
  unfold State.issue; split <;> rfl

@[simp] theorem State.issue_dataHi (s : State) (x : Execution) : (s.issue x).dataHi = s.dataHi := by
  unfold State.issue; split <;> rfl

@[simp] theorem State.issue_limbSelReg (s : State) (x : Execution) : (s.issue x).limbSelReg = s.limbSelReg := by
  unfold State.issue; split <;> rfl

@[simp] theorem State.issue_limbSelLimb (s : State) (x : Execution) : (s.issue x).limbSelLimb = s.limbSelLimb := by
  unfold State.issue; split <;> rfl

@[simp] theorem State.issue_script (s : State) (x : Execution) : (s.issue x).script = s.script := by
  unfold State.issue; split <;> rfl

@[simp] theorem State.issue_received (s : State) (x : Execution) : (s.issue x).received = s.received := by
  unfold State.issue; split <;> rfl

theorem State.issue_of_idle {s : State} (h : s.busy = false) (x : Execution) :
    s.issue x = { s with pending := some x.pending, work := x.work } := by
  simp [State.issue, h]

theorem State.issue_of_busy {s : State} (h : s.busy = true) (x : Execution) :
    s.issue x = { s with lost := true } := by
  simp [State.issue, h]

@[simp] theorem State.issue_busy (s : State) (x : Execution) : (s.issue x).busy = true := by
  cases h : s.busy
  · rw [State.issue_of_idle h]; rfl
  · rw [State.issue_of_busy h]; exact h

/-! ### Commit (20_memory.md R56) -/

@[simp] theorem State.commit_build (s : State) : s.commit.build = s.build := by
  unfold State.commit; split <;> rfl

@[simp] theorem State.commit_lost (s : State) : s.commit.lost = s.lost := by
  unfold State.commit; split <;> rfl

@[simp] theorem State.commit_dataLo (s : State) : s.commit.dataLo = s.dataLo := by
  unfold State.commit; split <;> rfl

@[simp] theorem State.commit_dataHi (s : State) : s.commit.dataHi = s.dataHi := by
  unfold State.commit; split <;> rfl

@[simp] theorem State.commit_limbSelReg (s : State) : s.commit.limbSelReg = s.limbSelReg := by
  unfold State.commit; split <;> rfl

@[simp] theorem State.commit_limbSelLimb (s : State) : s.commit.limbSelLimb = s.limbSelLimb := by
  unfold State.commit; split <;> rfl

@[simp] theorem State.commit_work (s : State) : s.commit.work = s.work := by
  unfold State.commit; split <;> rfl

@[simp] theorem State.commit_script (s : State) : s.commit.script = s.script := by
  unfold State.commit; split <;> rfl

@[simp] theorem State.commit_received (s : State) : s.commit.received = s.received := by
  unfold State.commit; split <;> rfl

@[simp] theorem State.commit_pending (s : State) : s.commit.pending = none := by
  unfold State.commit; split
  · assumption
  · rfl

@[simp] theorem State.commit_busy (s : State) : s.commit.busy = false := by
  simp [State.busy]

theorem State.commit_of_none {s : State} (h : s.pending = none) : s.commit = s := by
  simp [State.commit, h]

theorem State.commit_of_idle {s : State} (h : s.busy = false) : s.commit = s :=
  State.commit_of_none (by simpa [State.busy] using h)

theorem State.commit_of_some {s : State} {p : Pending} (h : s.pending = some p) :
    s.commit =
      { s with
        regs := applyWrites p.writes s.regs, cmp := p.cmp.getD s.cmp, bit := p.bit.getD s.bit
        zero := p.zero.getD s.zero, err := p.err, pending := none } := by
  simp [State.commit, h]

/-! ### The reset event (70_reset_and_hazards.md R250) -/

@[simp] theorem State.resetEvent_build (s : State) (regs : List Nat) (work : Working) :
    (s.resetEvent regs work).build = s.build := rfl

@[simp] theorem State.resetEvent_regs (s : State) (regs : List Nat) (work : Working) :
    (s.resetEvent regs work).regs = resetRegs s.build regs := rfl

@[simp] theorem State.resetEvent_err (s : State) (regs : List Nat) (work : Working) :
    (s.resetEvent regs work).err = .ok := rfl

@[simp] theorem State.resetEvent_cmp (s : State) (regs : List Nat) (work : Working) :
    (s.resetEvent regs work).cmp = .equal := rfl

@[simp] theorem State.resetEvent_bit (s : State) (regs : List Nat) (work : Working) :
    (s.resetEvent regs work).bit = false := rfl

@[simp] theorem State.resetEvent_zero (s : State) (regs : List Nat) (work : Working) :
    (s.resetEvent regs work).zero = false := rfl

@[simp] theorem State.resetEvent_lost (s : State) (regs : List Nat) (work : Working) :
    (s.resetEvent regs work).lost = false := rfl

@[simp] theorem State.resetEvent_dataLo (s : State) (regs : List Nat) (work : Working) :
    (s.resetEvent regs work).dataLo = 0 := rfl

@[simp] theorem State.resetEvent_dataHi (s : State) (regs : List Nat) (work : Working) :
    (s.resetEvent regs work).dataHi = 0 := rfl

@[simp] theorem State.resetEvent_limbSelReg (s : State) (regs : List Nat) (work : Working) :
    (s.resetEvent regs work).limbSelReg = 0 := rfl

@[simp] theorem State.resetEvent_limbSelLimb (s : State) (regs : List Nat) (work : Working) :
    (s.resetEvent regs work).limbSelLimb = 0 := rfl

@[simp] theorem State.resetEvent_pending (s : State) (regs : List Nat) (work : Working) :
    (s.resetEvent regs work).pending = none := rfl

@[simp] theorem State.resetEvent_work (s : State) (regs : List Nat) (work : Working) :
    (s.resetEvent regs work).work = work.fit s.build := rfl

@[simp] theorem State.resetEvent_script (s : State) (regs : List Nat) (work : Working) :
    (s.resetEvent regs work).script = s.script := rfl

@[simp] theorem State.resetEvent_received (s : State) (regs : List Nat) (work : Working) :
    (s.resetEvent regs work).received = s.received := rfl

end Sys2Proof.Machine
end

