-- ==== Sys2Proof/Laws/Ops.lean ====
section
/-! SUPPORT. The shared operations of Machine/Ops.lean and Machine/Operands.lean, each said once: staged writes,
raise and finish, the frame that runs a command's rule, and the registers a reset leaves. -/

namespace Sys2Proof.Machine

/-! ### Staged writes -/

@[simp] theorem applyWrites_nil (regs : List Nat) : applyWrites [] regs = regs := rfl

@[simp] theorem applyWrites_cons (p : Nat × Nat) (ps : List (Nat × Nat)) (regs : List Nat) :
    applyWrites (p :: ps) regs = applyWrites ps (regs.set p.1 p.2) := rfl

@[simp] theorem applyWrites_length (ws : List (Nat × Nat)) (regs : List Nat) :
    (applyWrites ws regs).length = regs.length := by
  induction ws generalizing regs with
  | nil => rfl
  | cons p ps ih => simp [ih]

/-- A register that no staged write names keeps its value. -/
theorem applyWrites_getD_of_not_mem {ws : List (Nat × Nat)} {r : Nat} (h : ∀ x ∈ ws, x.1 ≠ r) (regs : List Nat) :
    (applyWrites ws regs).getD r 0 = regs.getD r 0 := by
  induction ws generalizing regs with
  | nil => rfl
  | cons p ps ih =>
    have hp : p.1 ≠ r := h p (by simp)
    rw [applyWrites_cons, ih fun x hx => h x (by simp [hx])]
    simp [List.getD_eq_getElem?_getD, List.getElem?_set_ne hp]

/-- Staged values below a bound leave registers below it. -/
theorem applyWrites_lt {ws : List (Nat × Nat)} {m : Nat} (hw : ∀ x ∈ ws, x.2 < m) {regs : List Nat}
    (h : ∀ v ∈ regs, v < m) : ∀ v ∈ applyWrites ws regs, v < m := by
  induction ws generalizing regs with
  | nil => exact h
  | cons p ps ih =>
    refine ih (fun x hx => hw x (by simp [hx])) fun v hv => ?_
    rcases List.mem_or_eq_of_mem_set hv with hv | rfl
    · exact h v hv
    · exact hw p (by simp)

/-! ### Registers -/

/-- In a state that meets the invariant every register holds a W-bit value (10_state.md R20). -/
theorem State.reg_lt {s : State} (h : s.Inv) (r : Nat) : s.reg r < 2 ^ s.build.W := by
  unfold State.reg
  rw [List.getD_eq_getElem?_getD]
  cases hr : s.regs[r]? with
  | none => exact Nat.two_pow_pos _
  | some v => exact h.2.2.1 v (List.mem_of_getElem? hr)

@[simp] theorem snapshot_reg (s : State) (r : Nat) : s.snapshot.reg r = s.reg r := rfl

@[simp] theorem snapshot_build (s : State) : s.snapshot.build = s.build := rfl

/-- DATA = {DATA_HI, DATA_LO} (10_state.md R33). -/
theorem snapshot_data_toNat (s : State) : s.snapshot.data.toNat = s.dataHi.toNat * 2 ^ 32 + s.dataLo.toNat := by
  have h := s.dataLo.isLt
  simp only [State.snapshot, BitVec.toNat_append]
  rw [← Nat.shiftLeft_add_eq_or_of_lt h, Nat.shiftLeft_eq]

@[simp] theorem resetRegs_length (b : Build) (values : List Nat) : (resetRegs b values).length = b.K := by
  simp [resetRegs]

theorem resetRegs_lt (b : Build) (values : List Nat) : ∀ v ∈ resetRegs b values, v < 2 ^ b.W := by
  intro v hv
  obtain ⟨i, -, rfl⟩ := List.mem_map.mp hv
  exact Nat.mod_lt _ (Nat.two_pow_pos _)

/-! ### Running a command's rule -/

@[simp] theorem raise_pending (e : ErrCode) (w : Working) :
    (Execution.raise e w).pending = { writes := [], cmp := none, bit := none, zero := none, err := e } := rfl

@[simp] theorem raise_work (e : ErrCode) (w : Working) : (Execution.raise e w).work = w := rfl

@[simp] theorem finish_pending (e : ErrCode) (ws : List (Nat × Nat)) (w : Working) :
    (Execution.finish e ws w).pending = { writes := ws, cmp := none, bit := none, zero := none, err := e } := rfl

@[simp] theorem finish_work (e : ErrCode) (ws : List (Nat × Nat)) (w : Working) : (Execution.finish e ws w).work = w :=
  rfl

/-- Every used register field exists: the command's rule runs (30_encoding.md R90). -/
theorem checked_of_lt {fields : List Nat} {c : Snapshot} (h : ∀ f ∈ fields, f < c.build.K) (w : Working)
    (run : Snapshot → Working → Execution) : checked fields c w run = run c w := by
  have : fields.all (fun f => decide (f < c.build.K)) = true := by simpa using h
  simp [checked, this]

/-- Some used register field does not: ILLEGAL (30_encoding.md R86). -/
theorem checked_of_le {fields : List Nat} {c : Snapshot} (h : ∃ f ∈ fields, c.build.K ≤ f) (w : Working)
    (run : Snapshot → Working → Execution) : checked fields c w run = Execution.raise .illegal w := by
  have : fields.all (fun f => decide (f < c.build.K)) = false := by simpa using h
  simp [checked, this]

/-- A command always answers a next state: the state with its outcome issued. -/
theorem execute_eq (fields : List Nat) (run : Snapshot → Working → Execution) (s : State) :
    execute fields run s = .next (s.issue (checked fields s.snapshot s.work run)) := rfl

theorem execute_of_busy {s : State} (h : s.busy = true) (fields : List Nat) (run : Snapshot → Working → Execution) :
    execute fields run s = .next { s with lost := true } := by
  rw [execute_eq, State.issue_of_busy h]

theorem execute_of_idle {s : State} (h : s.busy = false) (fields : List Nat) (run : Snapshot → Working → Execution) :
    execute fields run s =
      .next
        { s with
          pending := some (checked fields s.snapshot s.work run).pending
          work := (checked fields s.snapshot s.work run).work } := by
  rw [execute_eq, State.issue_of_idle h]

/-- A command that is issued idle runs to the state its outcome describes. -/
theorem runsTo_of_execute {i : Instr} {s : State} {fields : List Nat} {run : Snapshot → Working → Execution}
    {x : Execution} (he : exec i s = execute fields run s) (hb : s.busy = false)
    (hx : checked fields s.snapshot s.work run = x) :
    RunsTo i s
      { s with
        regs := applyWrites x.pending.writes s.regs
        cmp := x.pending.cmp.getD s.cmp
        bit := x.pending.bit.getD s.bit
        zero := x.pending.zero.getD s.zero
        err := x.pending.err
        work := x.work } := by
  have hp : s.pending = none := by simpa [State.busy] using hb
  refine ⟨hb, x.pending, x.work, ?_, ?_⟩
  · rw [he, execute_of_idle hb, hx]
  · simp [State.commit, hp]

/-- A command runs to one state only. -/
theorem runsTo_unique {i : Instr} {s t t' : State} (h : RunsTo i s t) (h' : RunsTo i s t') : t = t' := by
  obtain ⟨-, p, w, he, rfl⟩ := h
  obtain ⟨-, p', w', he', rfl⟩ := h'
  rw [he] at he'
  injection he' with he'
  rw [he']

end Sys2Proof.Machine
end

