-- ==== Sys2Proof/Laws/Operands.lean ====
section
/-! SUPPORT. Limbs and bits of an operand (00_scope.md R12, 40_storage.md R110): a value is the sum of its limbs, bit `i`
of the limb form is bit `i` of the value, and what setting or clearing one bit does. -/

namespace Sys2Proof.Machine

theorem limb_lt (L v j : Nat) : limb L v j < 2 ^ L := Nat.mod_lt _ (Nat.two_pow_pos _)

/-- One more limb: the low `j + 1` limbs are the low `j` limbs and limb `j` at weight `2^(L*j)`. -/
theorem mod_succ_limb (L v j : Nat) : v % 2 ^ (L * (j + 1)) = v % 2 ^ (L * j) + limb L v j * 2 ^ (L * j) := by
  rw [Nat.mul_succ, Nat.pow_add, Nat.mod_mul, limb, Nat.mul_comm (2 ^ (L * j))]

theorem limb_mod (L v n j : Nat) (h : j < n) : limb L (v % 2 ^ (L * n)) j = limb L v j := by
  have hn : L * n = L * j + (L + L * (n - (j + 1))) := by
    obtain ⟨k, rfl⟩ := Nat.exists_eq_add_of_lt h
    rw [show j + k + 1 - (j + 1) = k by omega]; ring
  unfold limb
  rw [hn, Nat.pow_add, Nat.mod_mul_right_div_self, Nat.pow_add, Nat.mod_mul_right_mod]

theorem base_pow (b : Build) (j : Nat) : b.base ^ j = 2 ^ (b.L * j) := by
  rw [Build.base, ← Nat.pow_mul]

theorem W_eq (b : Build) : b.W = b.L * b.N := Nat.mul_comm _ _

/-- Bit `i` of the limb form is bit `i` of the value (40_storage.md R110). -/
theorem bitOf_eq_testBit {L : Nat} (hL : 0 < L) (v i : Nat) : bitOf L v i = v.testBit i := by
  unfold bitOf limb
  rw [Nat.testBit_mod_two_pow, Nat.testBit_div_two_pow]
  have h := Nat.mod_lt i hL
  have hi : i % L + L * (i / L) = i := by rw [Nat.add_comm]; exact Nat.div_add_mod i L
  simp [h, hi]

/-- A staged bit `val << idx` has no other bit. -/
theorem bool_shiftLeft_testBit (val : Bool) {idx j : Nat} (h : j ≠ idx) : (val.toNat <<< idx).testBit j = false := by
  rw [Nat.testBit_shiftLeft]
  by_cases hle : idx ≤ j
  · have : val.toNat < 2 ^ (j - idx) :=
      lt_of_le_of_lt (Bool.toNat_le val) (Nat.one_lt_two_pow (by omega))
    simp [Nat.testBit_lt_two_pow this]
  · simp [hle]

/-- Setting or clearing bit `idx` changes that bit alone (40_storage.md R116). -/
theorem withBit_testBit {W v idx : Nat} (hv : v < 2 ^ W) (hi : idx < W) (val : Bool) (j : Nat) :
    (withBit W v idx val).testBit j = if j = idx then val else v.testBit j := by
  unfold withBit
  simp only [Nat.testBit_or, Nat.testBit_and, Nat.testBit_xor, Nat.testBit_two_pow_sub_one]
  by_cases hj : j = idx
  · subst hj
    cases val <;> simp [hi]
  · have hval := bool_shiftLeft_testBit val hj
    have hone : (1 <<< idx).testBit j = false := bool_shiftLeft_testBit true hj
    rw [hval, hone, if_neg hj, Bool.xor_false, Bool.or_false]
    by_cases hW : j < W
    · simp [hW]
    · have : v.testBit j = false :=
        Nat.testBit_lt_two_pow (lt_of_lt_of_le hv (Nat.pow_le_pow_right (by norm_num) (by omega)))
      simp [this]

theorem withBit_lt {W v idx : Nat} (hi : idx < W) (val : Bool) : withBit W v idx val < 2 ^ W := by
  unfold withBit
  refine Nat.or_lt_two_pow (Nat.and_lt_two_pow _ ?_) ?_
  · refine Nat.xor_lt_two_pow (Nat.sub_lt (Nat.two_pow_pos _) (by norm_num)) ?_
    rw [Nat.shiftLeft_eq, Nat.one_mul]
    exact Nat.pow_lt_pow_right (by norm_num) hi
  · have : val.toNat ≤ 1 := Bool.toNat_le val
    rw [Nat.shiftLeft_eq]
    calc val.toNat * 2 ^ idx ≤ 1 * 2 ^ idx := Nat.mul_le_mul_right _ this
      _ < 2 ^ W := by rw [Nat.one_mul]; exact Nat.pow_lt_pow_right (by norm_num) hi

end Sys2Proof.Machine
end

