-- ==== Sys2Proof/Laws/Limbs.lean ====
section
/-! SUPPORT. The limb loops of ISZERO, CMP, SHL1, SHR1 and LOADINT, each with the value its rule says it computes
(40_storage.md R113, R114; 41_linear.md R146, R147; 42_composite.md R186). -/

namespace Sys2Proof.Machine

/-- Every limb is 0 iff the value is (R113). -/
theorem limbs_all_zero (L v n : Nat) : (List.range n).all (fun j => limb L v j == 0) = decide (v % 2 ^ (L * n) = 0) := by
  induction n with
  | zero => simp [Nat.mod_one]
  | succ n ih =>
    rw [List.range_succ, List.all_append, ih, mod_succ_limb]
    have := Nat.two_pow_pos (L * n)
    simp only [List.all_cons, List.all_nil, Bool.and_true, Nat.add_eq_zero_iff, mul_eq_zero, this.ne', or_false]
    rw [Bool.decide_and]
    congr 1

/-- CMP's loop gives the unsigned order of the low `n` limbs (R114). -/
theorem compareLimbs_eq (L a b n : Nat) :
    compareLimbs L a b n =
      if a % 2 ^ (L * n) = b % 2 ^ (L * n) then .equal
      else if b % 2 ^ (L * n) < a % 2 ^ (L * n) then .greater else .less := by
  induction n with
  | zero => simp [compareLimbs, Nat.mod_one]
  | succ n ih =>
    have hm := Nat.two_pow_pos (L * n)
    have ha := Nat.mod_lt a hm
    have hb := Nat.mod_lt b hm
    rw [compareLimbs, mod_succ_limb, mod_succ_limb]
    generalize limb L a n = x at *
    generalize limb L b n = y at *
    generalize 2 ^ (L * n) = m at *
    generalize a % m = A at *
    generalize b % m = B at *
    rcases lt_trichotomy x y with h | rfl | h
    · have : (x + 1) * m ≤ y * m := Nat.mul_le_mul_right _ h
      have h1 : A + x * m < B + y * m := by rw [Nat.add_mul] at this; omega
      rw [if_pos h.ne, if_neg (by omega), if_neg h1.ne, if_neg (by omega)]
    · rw [if_neg (by simp), ih]
      simp [Nat.add_right_cancel_iff]
    · have : (y + 1) * m ≤ x * m := Nat.mul_le_mul_right _ h
      have h1 : B + y * m < A + x * m := by rw [Nat.add_mul] at this; omega
      rw [if_pos h.ne', if_pos h, if_neg h1.ne', if_pos h1]

/-- The stored limb of SHL1: `((t << 1) | c) & limb_max` (R146). -/
theorem shl_limb (b : Build) (t : Nat) {c : Nat} (hc : c ≤ 1) :
    ((t <<< 1) ||| c) &&& b.limbMax = (2 * t + c) % b.base := by
  rw [Build.limbMax, Build.base, Nat.and_two_pow_sub_one_eq_mod,
    ← Nat.shiftLeft_add_eq_or_of_lt (i := 1) (by omega : c < 2 ^ 1), Nat.shiftLeft_eq, Nat.pow_one, Nat.mul_comm]

/-- SHL1's loop after `j` limbs (R146): the stored limbs and the carry are twice the low `j` limbs. -/
theorem shlChain_eq (b : Build) (hL : 0 < b.L) (a j : Nat) :
    (shlChain b a j).c ≤ 1 ∧ (shlChain b a j).low < 2 ^ (b.L * j) ∧
      (shlChain b a j).low + (shlChain b a j).c * 2 ^ (b.L * j) = 2 * (a % 2 ^ (b.L * j)) := by
  induction j with
  | zero => simp [shlChain, Nat.mod_one]
  | succ j ih =>
    obtain ⟨hc, hlow, heq⟩ := ih
    have ht := limb_lt b.L a j
    have hcarry : ((limb b.L a j).testBit (b.L - 1)).toNat = (2 * limb b.L a j + (shlChain b a j).c) / b.base := by
      rw [Nat.toNat_testBit, Build.base]
      have hpow : 2 ^ b.L = 2 * 2 ^ (b.L - 1) := by rw [← Nat.pow_succ']; congr 1; omega
      rw [hpow, ← Nat.div_div_eq_div_mul]
      have h2 : (2 * limb b.L a j + (shlChain b a j).c) / 2 = limb b.L a j := by omega
      rw [h2]
      rw [hpow] at ht
      exact Nat.mod_eq_of_lt (by rwa [Nat.div_lt_iff_lt_mul (Nat.two_pow_pos _)])
    have hpos : 0 < b.base := Nat.two_pow_pos _
    have hm : 2 ^ (b.L * (j + 1)) = 2 ^ (b.L * j) * b.base := by rw [Nat.mul_succ, Nat.pow_add, Build.base]
    have hmod := Nat.mod_lt (2 * limb b.L a j + (shlChain b a j).c) hpos
    have hdiv := Nat.mod_add_div (2 * limb b.L a j + (shlChain b a j).c) b.base
    rw [shlChain]
    simp only [shl_limb b _ hc, hcarry, base_pow]
    refine ⟨?_, ?_, ?_⟩
    · rw [← hcarry]; exact Bool.toNat_le _
    · rw [hm]
      have := Nat.mul_le_mul_left (2 ^ (b.L * j)) (Nat.succ_le_of_lt hmod)
      rw [Nat.succ_eq_add_one, Nat.mul_add, Nat.mul_one, Nat.mul_comm] at this
      omega
    · rw [mod_succ_limb, hm]
      generalize (2 * limb b.L a j + (shlChain b a j).c) / b.base = q at *
      generalize (2 * limb b.L a j + (shlChain b a j).c) % b.base = r at *
      generalize 2 ^ (b.L * j) = m at *
      calc _ = (shlChain b a j).low + (r + b.base * q) * m := by ring
        _ = (shlChain b a j).low + (shlChain b a j).c * m + 2 * limb b.L a j * m := by rw [hdiv]; ring
        _ = _ := by rw [heq]; ring

/-- SHL1's result (R146): `2a mod 2^W`. -/
theorem shlChain_low (b : Build) (hL : 0 < b.L) (a j : Nat) :
    (shlChain b a j).low = 2 * a % 2 ^ (b.L * j) := by
  obtain ⟨-, hlow, heq⟩ := shlChain_eq b hL a j
  have h : 2 * a % 2 ^ (b.L * j) = 2 * (a % 2 ^ (b.L * j)) % 2 ^ (b.L * j) := by simp [Nat.mul_mod]
  rw [h, ← heq, Nat.add_mul_mod_self_right, Nat.mod_eq_of_lt hlow]

/-- SHR1's loop over the low `j` limbs with a carry from above (R147): half of them. -/
theorem shrChain_eq (b : Build) (hL : 0 < b.L) (a j c : Nat) (hc : c ≤ 1) :
    shrChain b a j c = (a % 2 ^ (b.L * j) + c * 2 ^ (b.L * j)) / 2 := by
  induction j generalizing c with
  | zero => simp [shrChain, Nat.mod_one]; omega
  | succ j ih =>
    have ht := limb_lt b.L a j
    have hpow : 2 ^ b.L = 2 * 2 ^ (b.L - 1) := by rw [← Nat.pow_succ']; congr 1; omega
    have hhalf : limb b.L a j >>> 1 < 2 ^ (b.L - 1) := by rw [Nat.shiftRight_eq_div_pow]; omega
    have hor : limb b.L a j >>> 1 ||| c <<< (b.L - 1) = limb b.L a j / 2 + c * 2 ^ (b.L - 1) := by
      rw [Nat.or_comm, ← Nat.shiftLeft_add_eq_or_of_lt hhalf, Nat.shiftLeft_eq, Nat.shiftRight_eq_div_pow, Nat.pow_one,
        Nat.add_comm]
    have hbit : ((limb b.L a j).testBit 0).toNat = limb b.L a j % 2 := by
      rw [Nat.toNat_testBit, Nat.pow_zero, Nat.div_one]
    rw [shrChain]
    simp only [hor, hbit, base_pow]
    rw [ih _ (by omega), mod_succ_limb, Nat.mul_succ, Nat.pow_add, hpow]
    generalize limb b.L a j = t at *
    generalize 2 ^ (b.L * j) = m at *
    generalize 2 ^ (b.L - 1) = h at *
    generalize a % m = A at *
    have e : A + t * m + c * (m * (2 * h)) = (A + t % 2 * m) + (t / 2 * m + c * h * m) * 2 := by
      have : t * m = (t % 2 + 2 * (t / 2)) * m := by rw [Nat.mod_add_div]
      rw [this]; ring
    rw [e, Nat.add_mul_div_right _ _ (by norm_num)]
    ring

/-- LOADINT's loop with `n` limbs left (R186): the value mod `base^n`, and whether it needs more. -/
theorem loadLimbs_eq (b : Build) (n t : Nat) :
    (loadLimbs b n t).out = t % 2 ^ (b.L * n) ∧ (loadLimbs b n t).ovf = decide (2 ^ (b.L * n) ≤ t) := by
  induction n generalizing t with
  | zero => rcases t with _ | t <;> simp [loadLimbs, Nat.mod_one]
  | succ n ih =>
    obtain ⟨h1, h2⟩ := ih (t / b.base)
    rw [loadLimbs]
    by_cases h : t = 0
    · subst h; simp
    · have hpow : 2 ^ (b.L * (n + 1)) = b.base * 2 ^ (b.L * n) := by
        rw [Nat.mul_succ, Nat.add_comm, Nat.pow_add, Build.base]
      rw [if_neg h]
      refine ⟨?_, ?_⟩
      · show t % b.base + b.base * (loadLimbs b n (t / b.base)).out = _
        rw [h1, hpow, Nat.mod_mul]
      · show (loadLimbs b n (t / b.base)).ovf = _
        rw [h2, hpow]
        congr 1
        have hb : 0 < b.base := Nat.two_pow_pos _
        rw [Nat.le_div_iff_mul_le hb, Nat.mul_comm]

end Sys2Proof.Machine
end

