-- ==== Sys2Proof/Laws/PerInstr.lean ====
section
/-! SUPPORT. For every command: its word matches its row of the opcode map, `w & mask = match` (30_encoding.md R87). -/

namespace Sys2Proof.Laws.MatchesRow

/-- The mask and match columns of R87. -/
def row : Instr → Word × Word
  | .clear _ => (0xFFFFF0FF, 0x00000001)
  | .copy _ _ => (0xFFFF00FF, 0x00000002)
  | .iszero _ => (0xFFFF0FFF, 0x00000003)
  | .cmp _ _ => (0xFFF00FFF, 0x00000004)
  | .getbit _ _ => (0x0000F0FF, 0x00000005)
  | .setbit _ _ _ => (0x0000E0FF, 0x00000006)
  | .add _ _ _ => (0xFFF000FF, 0x00000007)
  | .sub _ _ _ => (0xFFF000FF, 0x00000008)
  | .shl1 _ _ => (0xFFFF00FF, 0x00000009)
  | .shr1 _ _ => (0xFFFF00FF, 0x0000000A)
  | .mul _ _ _ => (0xFFF000FF, 0x0000000B)
  | .div _ _ _ _ => (0xFC0000FF, 0x0000000C)
  | .powmod _ _ _ _ => (0xFF0000FF, 0x0000000D)
  | .loadint _ => (0xFFFFF0FF, 0x0000000E)

/-- A well-formed command's word matches its row. -/
def Statement (i : Instr) : Prop := i.wellFormed = true → encode i &&& (row i).1 = (row i).2

/-- A format R word matches a row whose mask is the opcode's byte and the bits from `lo` up, all of them 0 in the word. -/
theorem formatR_matches {op rd ra rb rc : Nat} {qen ren : Bool} (mask pattern : Word) (p lo len : Nat) (h : p ≤ lo)
    (hm : mask.toNat = 2 ^ p - 1 + (2 ^ len - 1) * 2 ^ lo) (hop : op < 256) (hd : rd < 16) (ha : ra < 16)
    (hb : rb < 16) (hc : rc < 16)
    (hw : ∀ n, n = op + rd * 2 ^ 8 + ra * 2 ^ 12 + rb * 2 ^ 16 + rc * 2 ^ 20 + qen.toNat * 2 ^ 24 + ren.toNat * 2 ^ 25 →
      n % 2 ^ p + n / 2 ^ lo % 2 ^ len * 2 ^ lo = pattern.toNat) :
    formatR op rd ra rb rc qen ren &&& mask = pattern := by
  rw [and_mask_eq_iff _ _ _ p lo len h hm]
  exact hw _ (formatR_toNat hop hd ha hb hc)

theorem clear (rd : Nat) : Statement (.clear rd) := by
  intro h
  simp only [Instr.wellFormed, regField, decide_eq_true_eq] at h
  refine formatR_matches _ _ 8 12 20 (by norm_num) rfl (by omega) h (by omega) (by omega) (by omega) ?_
  intro n hn; simp [row] at hn ⊢; omega

theorem copy (rd ra : Nat) : Statement (.copy rd ra) := by
  intro h
  simp only [Instr.wellFormed, regField, Bool.and_eq_true, decide_eq_true_eq] at h
  refine formatR_matches _ _ 8 16 16 (by norm_num) rfl (by omega) h.1 h.2 (by omega) (by omega) ?_
  intro n hn; simp [row] at hn ⊢; omega

theorem iszero (ra : Nat) : Statement (.iszero ra) := by
  intro h
  simp only [Instr.wellFormed, regField, decide_eq_true_eq] at h
  refine formatR_matches _ _ 12 16 16 (by norm_num) rfl (by omega) (by omega) h (by omega) (by omega) ?_
  intro n hn; simp [row] at hn ⊢; omega

theorem cmp (ra rb : Nat) : Statement (.cmp ra rb) := by
  intro h
  simp only [Instr.wellFormed, regField, Bool.and_eq_true, decide_eq_true_eq] at h
  refine formatR_matches _ _ 12 20 12 (by norm_num) rfl (by omega) (by omega) h.1 h.2 (by omega) ?_
  intro n hn; simp [row] at hn ⊢; omega

theorem getbit (r idx : Nat) : Statement (.getbit r idx) := by
  intro h
  simp only [Instr.wellFormed, regField, idxField, Bool.and_eq_true, decide_eq_true_eq] at h
  rw [row, encode, and_mask_eq_iff _ _ _ 8 12 4 (by norm_num) rfl, formatB_toNat (by omega) h.1 h.2]
  simp; omega

theorem setbit (r idx : Nat) (val : Bool) : Statement (.setbit r idx val) := by
  intro h
  simp only [Instr.wellFormed, regField, idxField, Bool.and_eq_true, decide_eq_true_eq] at h
  rw [row, encode, and_mask_eq_iff _ _ _ 8 13 3 (by norm_num) rfl, formatB_toNat (by omega) h.1 h.2]
  have := Bool.toNat_le val
  simp; omega

/-- The three-register form with RC and the enables 0: ADD, SUB, MUL. -/
theorem three_registers {op rd ra rb : Nat} (pattern : Word) (hp : pattern.toNat = op) (hop : op < 256)
    (h : (regField rd && regField ra && regField rb) = true) :
    formatR op rd ra rb 0 false false &&& 0xFFF000FF = pattern := by
  simp only [regField, Bool.and_eq_true, decide_eq_true_eq] at h
  refine formatR_matches _ _ 8 20 12 (by norm_num) rfl hop h.1.1 h.1.2 h.2 (by omega) ?_
  intro n hn; rw [hp]; simp at hn ⊢; omega

theorem add (rd ra rb : Nat) : Statement (.add rd ra rb) := three_registers _ rfl (by norm_num)

theorem sub (rd ra rb : Nat) : Statement (.sub rd ra rb) := three_registers _ rfl (by norm_num)

theorem shl1 (rd ra : Nat) : Statement (.shl1 rd ra) := by
  intro h
  simp only [Instr.wellFormed, regField, Bool.and_eq_true, decide_eq_true_eq] at h
  refine formatR_matches _ _ 8 16 16 (by norm_num) rfl (by omega) h.1 h.2 (by omega) (by omega) ?_
  intro n hn; simp [row] at hn ⊢; omega

theorem shr1 (rd ra : Nat) : Statement (.shr1 rd ra) := by
  intro h
  simp only [Instr.wellFormed, regField, Bool.and_eq_true, decide_eq_true_eq] at h
  refine formatR_matches _ _ 8 16 16 (by norm_num) rfl (by omega) h.1 h.2 (by omega) (by omega) ?_
  intro n hn; simp [row] at hn ⊢; omega

theorem mul (rd ra rb : Nat) : Statement (.mul rd ra rb) := three_registers _ rfl (by norm_num)

/-- An output's register field is below 16, present or not. -/
theorem output_lt {o : Option Nat} (h : o.all regField = true) : o.getD 0 < 16 := by
  cases o with
  | none => simp
  | some v => simpa [regField] using h

theorem div (quot rem : Option Nat) (ra rb : Nat) : Statement (.div quot rem ra rb) := by
  intro h
  simp only [Instr.wellFormed, Bool.and_eq_true] at h
  have ha : ra < 16 := by simpa [regField] using h.1.2
  have hb : rb < 16 := by simpa [regField] using h.2
  have hq := output_lt h.1.1.1
  have hr := output_lt h.1.1.2
  have := Bool.toNat_le quot.isSome
  have := Bool.toNat_le rem.isSome
  refine formatR_matches _ _ 8 26 6 (by norm_num) rfl (by omega) hq ha hb hr ?_
  intro n hn; simp [row]; omega

theorem powmod (rd ra rb rc : Nat) : Statement (.powmod rd ra rb rc) := by
  intro h
  simp only [Instr.wellFormed, regField, Bool.and_eq_true, decide_eq_true_eq] at h
  refine formatR_matches _ _ 8 24 8 (by norm_num) rfl (by omega) h.1.1.1 h.1.1.2 h.1.2 h.2 ?_
  intro n hn; simp [row] at hn ⊢; omega

theorem loadint (rd : Nat) : Statement (.loadint rd) := by
  intro h
  simp only [Instr.wellFormed, regField, decide_eq_true_eq] at h
  refine formatR_matches _ _ 8 12 20 (by norm_num) rfl (by omega) h (by omega) (by omega) (by omega) ?_
  intro n hn; simp [row] at hn ⊢; omega

end Sys2Proof.Laws.MatchesRow
end

