-- ==== Sys2Proof/Laws/Window.lean ====
section
/-! SUPPORT. What an access, an event and a step can do, each said once (20_memory.md R51 to R56, R63), so that a proof over all
steps goes through these cases and unfolds neither the window nor the commands. -/

namespace Sys2Proof.Machine

/-- Every command answers a next state: its issue (R55). -/
theorem exec_eq_issue (i : Instr) (s : State) : ∃ x, exec i s = .next (s.issue x) := by
  cases i <;> exact ⟨_, execute_eq _ _ _⟩

/-- So does every word (R55). -/
theorem issueWord_eq_issue (w : Word) (s : State) : ∃ x, issueWord w s = .next (s.issue x) := by
  unfold issueWord
  split
  · exact exec_eq_issue _ s
  · exact ⟨_, rfl⟩

/-- A window offset that holds a register lies in the window and is a multiple of 4 (R50). -/
theorem windowReg_some {off : Nat} {r : WindowReg} (h : windowReg off = some r) : off < 0x20 ∧ 4 ∣ off := by
  unfold windowReg at h
  split at h <;> simp_all

/-- An access reaches a register iff it is 32 bits wide and the register lies at its offset from the base (R50, R54). -/
theorem windowAccess_eq_ok {b : Build} {width : Width} {addr : Nat} {r : WindowReg} :
    windowAccess b width addr = .ok r ↔
      width = .word ∧ b.windowBase ≤ addr ∧ windowReg (addr - b.windowBase) = some r := by
  unfold windowAccess
  constructor
  · intro h
    split at h
    · cases h
    · rename_i hw
      split at h
      · cases h
      · rename_i ho
        split at h
        · rename_i r' hr
          injection h with h
          exact ⟨not_not.mp hw, by omega, h ▸ hr⟩
        · cases h
  · rintro ⟨rfl, hb, hr⟩
    have := (windowReg_some hr).1
    have ho : ¬(addr < b.windowBase ∨ b.windowBase + 0x20 ≤ addr) := by omega
    simp [ho, hr]

/-- The host's write to CMD is admitted. -/
@[simp] theorem windowAccess_cmd (b : Build) : windowAccess b .word (b.windowBase + 0x0C) = .ok .cmd :=
  windowAccess_eq_ok.mpr ⟨rfl, by omega, by simp [windowReg]⟩

/-- A host write always answers a next state: an issue, or a change of LOST, DATA and LIMB_SEL alone (R53). -/
theorem hostWrite_cases (r : WindowReg) (v : Word) (s : State) :
    (r = .cmd ∧ hostWrite r v s = issueWord v s) ∨
      r ≠ .cmd ∧ ∃ lost lo hi sel limb, hostWrite r v s =
        .next { s with lost := lost, dataLo := lo, dataHi := hi, limbSelReg := sel, limbSelLimb := limb } := by
  cases r
  case cmd => exact .inl ⟨rfl, rfl⟩
  case status =>
    refine .inr ⟨by simp, (if v.getLsbD 9 then false else s.lost), s.dataLo, s.dataHi, s.limbSelReg, s.limbSelLimb, ?_⟩
    simp only [hostWrite]
    split <;> rfl
  all_goals exact .inr ⟨by simp, _, _, _, _, _, rfl⟩

/-- Everything an event can do when it is not refused (R63). -/
theorem react_cases {e : Event} {s t : State} (h : react e s = .next t) :
    (∃ width addr r, e = .read width addr ∧ t = { s with received := s.received ++ [s.hostRead r] }) ∨
    (∃ width addr v lost lo hi sel limb, e = .write width addr v ∧
      windowAccess s.build width addr ≠ .ok .cmd ∧
      t = { s with lost := lost, dataLo := lo, dataHi := hi, limbSelReg := sel, limbSelLimb := limb }) ∨
    (∃ width addr v x, e = .write width addr v ∧ windowAccess s.build width addr = .ok .cmd ∧
      issueWord v s = .next t ∧ t = s.issue x) ∨
    (e = .block ∧ t = s.commit) ∨
    ∃ regs work, e = .reset regs work ∧ t = s.resetEvent regs work := by
  cases e with
  | read width addr =>
    simp only [react] at h
    split at h
    · injection h with h
      exact .inl ⟨_, _, _, rfl, h.symm⟩
    · cases h
  | write width addr v =>
    simp only [react] at h
    split at h
    · rename_i r hr
      obtain ⟨rfl, hc⟩ | ⟨hne, lost, lo, hi, sel, limb, hc⟩ := hostWrite_cases r v s
      · rw [hc] at h
        obtain ⟨x, hx⟩ := issueWord_eq_issue v s
        rw [hx] at h
        injection h with h
        exact .inr (.inr (.inl ⟨_, _, _, x, rfl, hr, by rw [hx, h], h.symm⟩))
      · rw [hc] at h
        injection h with h
        refine .inr (.inl ⟨_, _, _, lost, lo, hi, sel, limb, rfl, ?_, h.symm⟩)
        rw [hr]
        simpa using hne
    · cases h
  | block =>
    injection h with h
    exact .inr (.inr (.inr (.inl ⟨rfl, h.symm⟩)))
  | reset regs work =>
    injection h with h
    exact .inr (.inr (.inr (.inr ⟨_, _, rfl, h.symm⟩)))

/-- An event is refused only if it is an access that reaches no register (R51, R54). -/
theorem react_next {e : Event} {s : State} (h : e.admitted s.build = true) : ∃ t, react e s = .next t := by
  cases e with
  | read width addr =>
    simp only [Event.admitted] at h
    simp only [react]
    split
    · exact ⟨_, rfl⟩
    · rename_i he
      simp [he, Except.toBool] at h
  | write width addr v =>
    simp only [Event.admitted] at h
    simp only [react]
    split
    · rename_i r hr
      obtain ⟨rfl, hc⟩ | ⟨-, _, _, _, _, _, hc⟩ := hostWrite_cases r v s
      · obtain ⟨x, hx⟩ := issueWord_eq_issue v s
        exact ⟨_, hc.trans hx⟩
      · exact ⟨_, hc⟩
    · rename_i he
      simp [he, Except.toBool] at h
  | block => exact ⟨_, rfl⟩
  | reset regs work => exact ⟨_, rfl⟩

/-- With no event left, the step is the block's turn. -/
theorem step_of_nil {s : State} (h : s.script = []) : step s = .next s.commit := by
  simp [step, h, State.blockStep]

/-- Otherwise it is the first event. -/
theorem step_of_cons {s : State} {e : Event} {rest : List Event} (h : s.script = e :: rest) :
    step s = react e { s with script := rest } := by
  simp [step, h]

end Sys2Proof.Machine
end

