-- ==== Sys2Proof/Tests/Slice0.lean ====
section
/-! SUPPORT. The model's own tests. Expected words and results are copied from 30_encoding.md R95 and
95_test_vectors.md (the vector's number stands in the comment), or worked by hand from the rule named. The second half
gives, for each statement with hypotheses, a concrete case that meets all of them. -/

namespace Sys2Proof.Tests

open Sys2Proof Sys2Proof.Machine

/-! ### A small machine -/

/-- An idle state of build `b` whose first operand registers hold `values`, the others 0. -/
def machine (b : Build) (values : List Nat) : State :=
  State.resetOf b (values ++ List.replicate (b.K - values.length) 0) Working.zeros

/-- The reference build. -/
def reference (values : List Nat) : State := machine Config.reference values

/-- The reference build with TRAP_NEG. -/
def trapping (values : List Nat) : State := machine { Config.reference with trapNeg := true } values

/-- A build with 8-bit limbs, 2 of them, 4 registers, an accumulator of just 9 bits, and a window elsewhere. -/
def small (values : List Nat) : State := machine { L := 8, N := 2, K := 4, trapNeg := true, accBits := 9, windowBase := 0x4000 } values

/-- The word `w` is issued and committed: the state after, apart from the working registers. -/
def afterWord (s : State) (w : Nat) : Option State :=
  match step (s.withFetchWord 32 w) with
  | .next t => some { t.commit with work := s.work }
  | _ => none

/-- `t` is where command `i` leads from `s`, as a test. -/
def runCheck (i : Instr) (s t : State) : Bool :=
  !s.busy &&
    match exec i s with
    | .next u => u.pending.isSome && decide (u = { s with pending := u.pending, work := u.work }) && decide (u.commit = t)
    | _ => false

theorem runsTo_of_runCheck {i : Instr} {s t : State} (h : runCheck i s t = true) : RunsTo i s t := by
  simp only [runCheck, Bool.and_eq_true, Bool.not_eq_true'] at h
  obtain ⟨hb, h⟩ := h
  split at h
  · rename_i u hu
    simp only [Bool.and_eq_true, decide_eq_true_eq] at h
    obtain ⟨⟨hp, he⟩, hc⟩ := h
    obtain ⟨p, hp⟩ := Option.isSome_iff_exists.mp hp
    rw [hp] at he
    exact ⟨hb, p, u.work, by rw [hu, ← he], by rw [← he, hc]⟩
  · cases h

/-! ### Well-formedness: one ill-formed term for each check -/

theorem test_wellFormed_storage :
    ([.clear 16, .copy 16 0, .copy 0 16, .iszero 16, .cmp 16 0, .cmp 0 16, .getbit 16 0, .getbit 0 65536,
      .setbit 16 0 true, .setbit 0 65536 true] : List Instr).all (fun i => !i.wellFormed) = true := by decide

theorem test_wellFormed_linear :
    ([.add 16 0 0, .add 0 16 0, .add 0 0 16, .sub 16 0 0, .sub 0 16 0, .sub 0 0 16, .shl1 16 0, .shl1 0 16, .shr1 16 0,
      .shr1 0 16] : List Instr).all (fun i => !i.wellFormed) = true := by decide

theorem test_wellFormed_composite :
    ([.mul 16 0 0, .mul 0 16 0, .mul 0 0 16, .div (some 16) none 0 0, .div none (some 16) 0 0, .div none none 16 0,
      .div none none 0 16, .loadint 16, .powmod 16 0 0 0, .powmod 0 16 0 0, .powmod 0 0 16 0,
      .powmod 0 0 0 16] : List Instr).all (fun i => !i.wellFormed) = true := by decide

/-! ### Decoding: words written out from R81, R82 and R87 -/

/-- CLEAR B3, COPY B1 B2, ISZERO B5, CMP B0 B1, GETBIT B2 #63, SETBIT B2 #17 #1. -/
theorem test_decode_storage :
    decode 0b00000000000000000000001100000001 = .command (.clear 3) ∧
    decode 0b00000000000000000010000100000010 = .command (.copy 1 2) ∧
    decode 0b00000000000000000101000000000011 = .command (.iszero 5) ∧
    decode 0b00000000000000010000000000000100 = .command (.cmp 0 1) ∧
    decode 0b00000000001111110000001000000101 = .command (.getbit 2 63) ∧
    decode 0b00000000000100010001001000000110 = .command (.setbit 2 17 true) := by decide

/-- ADD B2 B0 B1, SUB B2 B0 B1, SHL1 B0 B0, SHR1 B4 B3. -/
theorem test_decode_linear :
    decode 0b00000000000000010000001000000111 = .command (.add 2 0 1) ∧
    decode 0b00000000000000010000001000001000 = .command (.sub 2 0 1) ∧
    decode 0b00000000000000000000000000001001 = .command (.shl1 0 0) ∧
    decode 0b00000000000000000011010000001010 = .command (.shr1 4 3) := by decide

/-- MUL B2 B0 B1, DIV B2 B3 B0 B1, MOD B3 B0 B1, QUO B2 B0 B1, DIVCHK B0 B1, SQR B2 B0, LOADINT B7. -/
theorem test_decode_composite :
    decode 0b00000000000000010000001000001011 = .command (.mul 2 0 1) ∧
    decode 0b00000011001100010000001000001100 = .command (.div (some 2) (some 3) 0 1) ∧
    decode 0b00000010001100010000000000001100 = .command (Instr.mod 3 0 1) ∧
    decode 0b00000001000000010000001000001100 = .command (Instr.quo 2 0 1) ∧
    decode 0b00000000000000010000000000001100 = .command (Instr.divchk 0 1) ∧
    decode 0b00000000000000000000001000001011 = .command (Instr.sqr 2 0) ∧
    decode 0b00000000000000000000011100001110 = .command (.loadint 7) := by decide

/-- POWMOD B3 B0 B1 B2, and four different fields. -/
theorem test_decode_modexp :
    decode 0b00000000001000010000001100001101 = .command (.powmod 3 0 1 2) ∧
    decode 0b00000000100001000010000100001101 = .command (.powmod 1 2 4 8) := by decide

/-- T120 to T128, and T134: each word is ILLEGAL, and the check that fails first says so (R90). -/
theorem test_decode_illegal :
    decode 0x00000000 = .illegal .reservedOpcode ∧ decode 0x0000000F = .illegal .reservedOpcode ∧
    decode 0x000000FF = .illegal .reservedOpcode ∧ decode 0x00001301 = .illegal .reservedBits ∧
    decode 0x80010207 = .illegal .reservedBits ∧ decode 0x003F1205 = .illegal .reservedBits ∧
    decode 0x00112206 = .illegal .reservedBits ∧ decode 0x0231020C = .illegal .disabledQuotient ∧
    decode 0x0131020C = .illegal .disabledRemainder ∧ decode 0x00F2100C = .illegal .disabledRemainder := by decide

/-- The worked encodings of R95, from the commands. -/
theorem test_encode :
    encode (.clear 3) = 0x00000301 ∧ encode (.copy 1 2) = 0x00002102 ∧ encode (.iszero 5) = 0x00005003 ∧
    encode (.cmp 0 1) = 0x00010004 ∧ encode (.getbit 2 63) = 0x003F0205 ∧ encode (.setbit 2 17 true) = 0x00111206 ∧
    encode (.add 2 0 1) = 0x00010207 ∧ encode (.sub 2 0 1) = 0x00010208 ∧ encode (.shl1 0 0) = 0x00000009 ∧
    encode (.shr1 4 3) = 0x0000340A ∧ encode (.mul 2 0 1) = 0x0001020B ∧
    encode (.div (some 2) (some 3) 0 1) = 0x0331020C ∧ encode (.div none (some 3) 0 1) = 0x0231000C ∧
    encode (.powmod 3 0 1 2) = 0x0021030D ∧ encode (.loadint 7) = 0x0000070E := by decide

theorem test_decodeTableWord :
    decodeTableWord 32 0x0331020C = some (.div (some 2) (some 3) 0 1) ∧ decodeTableWord 32 0x0000000F = none := by decide

/-- The placed word is the next one to run, also where a command is pending. -/
theorem test_withFetchWord :
    step (State.reset.withFetchWord 32 0x00000301) = exec (.clear 3) State.reset ∧
    (afterWord { State.reset with pending := some (Execution.raise .bounds Working.zeros).pending } 0x0000000F).map (·.err) =
      some .illegal := ⟨rfl, by decide +kernel⟩

/-! ### Commands: one word on a small state, issued and committed -/

/-- T1. -/
theorem test_clear : afterWord (reference [0, 0, 0, 0x123456789ABC]) 0x00000301 = some (reference []) := by decide +kernel

/-- T3: the source is unchanged. -/
theorem test_copy : afterWord (reference [0, 7, 65261]) 0x00002102 = some (reference [0, 65261, 65261]) := by decide +kernel

/-- T5: zero. -/
theorem test_iszero_zero : afterWord (reference [1, 1]) 0x00005003 = some { reference [1, 1] with zero := true } := by
  decide +kernel

/-- T6: only the top bit is set. -/
theorem test_iszero_top : (afterWord { reference [0, 0, 0, 0, 0, 0x8000000000000000] with zero := true } 0x00005003).map (·.zero) =
    some false := by decide +kernel

/-- T11: the top bit is no sign. -/
theorem test_cmp_unsigned : (afterWord (reference [0x8000000000000000, 0x7FFFFFFFFFFFFFFF]) 0x00010004).map (·.cmp) =
    some .greater := by decide +kernel

/-- T9: T8 with the operands swapped. -/
theorem test_cmp_swapped : (afterWord (reference [65536, 65535]) 0x00001004).map (·.cmp) = some .less := by decide +kernel

/-- T17: bit W-1. -/
theorem test_getbit_top : afterWord (reference [0, 0, 0x8000000000000000]) 0x003F0205 =
    some { reference [0, 0, 0x8000000000000000] with bit := true } := by decide +kernel

/-- T18: index W; BIT keeps its value 1. -/
theorem test_getbit_bounds : afterWord { reference [0, 0, 0x8000000000000000] with bit := true } 0x00400205 =
    some { reference [0, 0, 0x8000000000000000] with bit := true, err := .bounds } := by decide +kernel

/-- T23: the top bit; the other bits are kept. -/
theorem test_setbit_top : afterWord (reference [0, 0, 1]) 0x003F1206 = some (reference [0, 0, 0x8000000000000001]) := by
  decide +kernel

/-- T25: index W; nothing written. -/
theorem test_setbit_bounds : afterWord (reference [0, 0, 5]) 0x00401206 = some { reference [0, 0, 5] with err := .bounds } := by
  decide +kernel

/-- T32: the carry runs through all limbs; the truncated sum is written. -/
theorem test_add_overflow : afterWord (reference [0xFFFFFFFFFFFFFFFF, 1, 9]) 0x00010207 =
    some { reference [0xFFFFFFFFFFFFFFFF, 1, 0] with err := .overflow } := by decide +kernel

/-- T37: the destination is the second source. -/
theorem test_add_onto_source : afterWord (reference [0xFFFF0000, 65536]) 0x00010107 = some (reference [0xFFFF0000, 0x100000000]) := by
  decide +kernel

/-- T38: a borrow is no error without TRAP_NEG. -/
theorem test_sub_wraps : afterWord (reference [0, 1]) 0x00010208 = some (reference [0, 1, 0xFFFFFFFFFFFFFFFF]) := by
  decide +kernel

/-- T39: with TRAP_NEG it is NEGATIVE, and the wrapped value is written. -/
theorem test_sub_negative : afterWord (trapping [0, 1]) 0x00010208 =
    some { trapping [0, 1, 0xFFFFFFFFFFFFFFFF] with err := .negative } := by decide +kernel

/-- T48: every limb carries into the next, in place. -/
theorem test_shl1 : afterWord (reference [0x8000800080008000]) 0x00000009 = some (reference [0x1000100010000]) := by
  decide +kernel

/-- T52: every limb carries into the one below, in place. -/
theorem test_shr1 : afterWord (reference [0x1000100010001]) 0x0000000A = some (reference [0x800080008000]) := by
  decide +kernel

/-- T60. -/
theorem test_mul : afterWord (reference [65261, 48879]) 0x0001020B = some (reference [65261, 48879, 0xBE21E543]) := by
  decide +kernel

/-- T68: the destination is a source; nothing written. -/
theorem test_mul_alias : afterWord (reference [3, 4]) 0x0001010B = some { reference [3, 4] with err := .alias_ } := by
  decide +kernel

/-- T83: the outputs name the inputs. -/
theorem test_div_in_place : afterWord (reference [1000, 7]) 0x0311000C = some (reference [142, 6]) := by decide +kernel

/-- T78: ALIAS comes before DIVZERO; nothing written. -/
theorem test_div_alias_first : afterWord (reference [10, 0, 17]) 0x0321020C = some { reference [10, 0, 17] with err := .alias_ } := by
  decide +kernel

/-- T100. -/
theorem test_powmod : afterWord (reference [4, 13, 497]) 0x0021030D = some (reference [4, 13, 497, 445]) := by decide +kernel

/-- T109: the multiplication wraps, and the loop's value is the result. -/
theorem test_powmod_wraps : (afterWord (reference [0x100000000, 2, 0x8000000000000001, 9]) 0x0021030D).map (·.regs) =
    some [0x100000000, 2, 0x8000000000000001, 0, 0, 0, 0, 0] := by decide +kernel

/-- T85: two words of DATA. -/
theorem test_loadint : (afterWord { reference [] with dataHi := 1, dataLo := 0xFFFFFFFE } 0x0000070E).map (·.regs) =
    some [0, 0, 0, 0, 0, 0, 0, 0x1FFFFFFFE] := by decide +kernel

/-- T177, a 16-bit build: 2^16 needs a third limb. -/
theorem test_loadint_overflow : (afterWord { small [1, 1] with dataLo := 0x10000 } 0x0000010E).map (fun t => (t.regs, t.err)) =
    some ([1, 0, 0, 0], .overflow) := by decide +kernel

/-- T130, T132 and T133: a register field at or beyond K is ILLEGAL, before ALIAS and before BOUNDS. -/
theorem test_register_range :
    [0x00010807, 0x0000990B, 0x00400805].map (fun w => (afterWord (reference [1, 2]) w).map (·.err)) =
      [some .illegal, some .illegal, some .illegal] := by decide +kernel

/-! ### The window, one access each -/

/-- T140, and the same of another build, worked from R31: 2 + 8 * 2^16 + 3 * 2^24 + 2^28. -/
theorem test_read_config :
    (reference []).hostRead .config = 0x07100004 ∧ (small []).hostRead .config = 0x13080002 := by decide

/-- R23, one field at a time: LOST, BUSY, ZERO, BIT, CMP = less, ERR = ALIAS (T154 to T157 for the single bits). -/
theorem test_read_status :
    ({ reference [] with zero := true } : State).hostRead .status = 0x080 ∧
    ({ reference [] with cmp := .less } : State).hostRead .status = 0x030 ∧
    ({ reference [] with bit := true } : State).hostRead .status = 0x040 ∧
    ({ reference [] with lost := true } : State).hostRead .status = 0x200 ∧
    ({ reference [] with err := .alias_ } : State).hostRead .status = 0x006 ∧
    ({ reference [] with pending := some (Execution.raise .ok Working.zeros).pending } : State).hostRead .status = 0x100 := by
  decide

/-- T146: bits 15:4 of LIMB_SEL read 0. T147: LIMB_DATA is 0 out of range. -/
theorem test_limbSel :
    (match hostWrite .limbSel 0xFFFFFFFF (reference []) with
      | .next t => some (t.hostRead .limbSel, t.hostRead .limbData)
      | _ => none) = some (0xFFFF000F, 0) := by decide

/-- T151: limb 2 of B5. T152: limb 4 is out of range. -/
theorem test_limbData :
    ({ reference [0, 0, 0, 0, 0, 0x0123456789ABCDEF] with limbSelReg := 5, limbSelLimb := 2 } : State).hostRead .limbData = 0x4567 ∧
    ({ reference [0, 0, 0, 0, 0, 0x0123456789ABCDEF] with limbSelReg := 5, limbSelLimb := 4 } : State).hostRead .limbData = 0 := by
  decide

/-- T149: only bit 9 of a write to STATUS does anything. T158: it clears LOST. -/
theorem test_write_status :
    hostWrite .status 0xFFFFFDFF { reference [] with lost := true } = .next { reference [] with lost := true } ∧
    hostWrite .status 0x00000200 { reference [] with lost := true } = .next (reference []) := ⟨rfl, rfl⟩

/-- R54 and R51: a byte access, a misaligned one, and one just above the window are refused, each by name. -/
theorem test_refused :
    react (.read .byte 0x4008) (small []) = .refused .accessWidth ∧
    react (.write .word 0x400A 0) (small []) = .refused .misaligned ∧
    react (.read .word 0x4020) (small []) = .refused .outsideWindow ∧
    react (.read .word 0x3FFC) (small []) = .refused .outsideWindow := ⟨rfl, rfl, rfl, rfl⟩

/-- R58: byte 1 of DATA_LO lies at offset 0x11. -/
theorem test_laneByte : ({ reference [] with dataLo := 0x11223344 } : State).laneByte 0x11 = some 0x33 := by decide

/-! ### Witnesses: concrete cases that meet the hypotheses of each statement -/

/-- A pending outcome, and a state that is busy with it. -/
def busyWith (s : State) : State := { s with pending := some { writes := [(0, 5)], cmp := none, bit := none, zero := none, err := .ok } }

/-- A host write of `w` to CMD comes next in `s`. -/
def withCmd (s : State) (w : Word) : State := { s with script := [cmdWrite s.build w] }

theorem witness_DecodeOfEncode :
    (Instr.div (some 15) none 15 0).wellFormed = true ∧ (Instr.getbit 15 65535).wellFormed = true ∧
    (Instr.powmod 15 15 15 15).wellFormed = true := by decide

theorem witness_EncodeOfDecode : decode 0xFFFF1F06 = .command (.setbit 15 65535 true) := by decide

theorem witness_StepRunsDecodedCommand :
    (withCmd (small [1]) 0x00000301).script = [cmdWrite (small [1]).build 0x00000301] ∧
    decode 0x00000301 = .command (.clear 3) := by decide

theorem witness_MalformedWordReportsIllegal :
    (withCmd (small [1]) 0x0000000F).script = [cmdWrite (small [1]).build 0x0000000F] ∧
    (withCmd (small [1]) 0x0000000F).busy = false ∧ decode 0x0000000F = .illegal .reservedOpcode := by decide

/-- The first register number beyond K, in one field of a command that also has BOUNDS to report. -/
theorem witness_RegisterFieldBeyondKIsIllegal :
    (reference []).busy = false ∧ ∃ f ∈ (Instr.getbit 8 64).uses, (reference []).build.K ≤ f := by decide

theorem witness_WordWhileBusyIsDropped :
    (withCmd (busyWith (small [1])) 0x00000301).script = [cmdWrite (small [1]).build 0x00000301] ∧
    (withCmd (busyWith (small [1])) 0x00000301).busy = true := by decide

/-- Busy and idle, with a block event and with an empty script. -/
theorem witness_BlockTurnCommitsPending :
    (busyWith (small [1])).pending.isSome = true ∧ (small [1]).busy = false ∧ (small [1]).script = [] ∧
    ({ busyWith (small [1]) with script := [.block] } : State).script = [.block] := by decide

theorem witness_HostCannotDisturbPendingCommand :
    (busyWith (small [1])).busy = true ∧
    react (.write .word 0x4010 7) (busyWith (small [1])) = .next { busyWith (small [1]) with dataLo := 7 } :=
  ⟨rfl, rfl⟩

/-- A busy state whose script holds a read, a command that will be dropped and a block event, and no reset; the same state
with no event left, which commits in its one step; and a script with a reset, for the last clause. -/
theorem witness_EveryCommandEventuallyCommits :
    (busyWith (small [1])).pending = some { writes := [(0, 5)], cmp := none, bit := none, zero := none, err := .ok } ∧
    (∀ e ∈ [Event.read .word 0x4008, .write .word 0x400C 1, .block, .reset [] Working.zeros],
      e.admitted (small [1]).build = true) ∧
    (∀ regs work, Event.reset regs work ∉ [Event.read .word 0x4008, .write .word 0x400C 1, .block]) ∧
    (busyWith (small [1])).script = [] ∧ StepsTo 1 (busyWith (small [1])) (small [5]) :=
  ⟨rfl, by decide, by simp, rfl, _, rfl, rfl⟩

/-- LIMB_DATA at the last register and limb, and just beyond each. -/
theorem witness_HostReadReturnsRegister :
    State.Inv { small [1, 2, 3, 0xABCD] with
      limbSelReg := 3, limbSelLimb := 1, script := [.read .word (0x4000 + windowOffset .limbData)] } ∧
    windowValue { small [1, 2, 3, 0xABCD] with limbSelReg := 3, limbSelLimb := 1 } .limbData = 0xAB ∧
    windowValue { small [1, 2, 3, 0xABCD] with limbSelReg := 4, limbSelLimb := 1 } .limbData = 0 ∧
    windowValue { small [1, 2, 3, 0xABCD] with limbSelReg := 3, limbSelLimb := 2 } .limbData = 0 := by decide

theorem witness_HostWriteChangesOnlyItsRegister :
    ({ small [] with script := [.write .word (0x4000 + windowOffset .status) 0x200] } : State).script =
      [.write .word ((small []).build.windowBase + windowOffset .status) 0x200] := by decide

/-- The first and the last admitted address, and the addresses next to them. -/
theorem witness_OnlyAlignedWordAccessesAreAdmitted :
    [0x3FFC, 0x4000, 0x4001, 0x401C, 0x401F, 0x4020].map (fun a => (windowAccess (small []).build .word a).toBool) =
      [false, true, false, true, false, false] := by decide

theorem witness_LimbReadsGiveWholeOperand : (small [0xABCD]).Inv ∧ 3 < (small [0xABCD]).build.K := by decide

/-- Largest values for the registers the reset leaves open; any other list is cut to them. -/
theorem witness_ResetEventClearsTheBlock :
    ({ busyWith (small [1]) with script := [.reset [70000] Working.zeros] } : State).script = [.reset [70000] Working.zeros] ∧
    [65535, 65535, 0, 1].length = (small []).build.K ∧ (∀ v ∈ [65535, 65535, 0, 1], v < 2 ^ (small []).build.W) ∧
    Working.zeros.Ok (small []).build := by decide

/-- The smallest and the largest build of the constraints R6, R7 and R10. -/
theorem witness_ResetMeetsInvariant :
    Build.Valid { L := 8, N := 1, K := 4, trapNeg := false, accBits := 9, windowBase := 0 } ∧
    Build.Valid { L := 32, N := 2048, K := 16, trapNeg := true, accBits := 64, windowBase := 4096 } ∧
    [255, 0, 1, 2].length = 4 ∧ (∀ v ∈ [255, 0, 1, 2], v < 2 ^ 8) ∧
    Working.zeros.Ok { L := 8, N := 1, K := 4, trapNeg := false, accBits := 9, windowBase := 0 } := by decide

/-- A state that is busy with a write of the largest value, and its step. -/
theorem witness_StepKeepsInvariant :
    State.Inv { small [1] with pending := some { writes := [(3, 65535)], cmp := none, bit := none, zero := none, err := .negative } } ∧
    (match step { small [1] with pending := some { writes := [(3, 65535)], cmp := none, bit := none, zero := none, err := .negative } } with
      | .next t => t.regs
      | _ => []) = [1, 0, 0, 65535] := by decide

theorem witness_StepKeepsBuild : step (small [1]) = .next (small [1]) := rfl

/-- Both ways a register changes. -/
theorem witness_OnlyCommitOrResetWritesRegisters :
    step (busyWith (small [1])) = .next (small [5]) ∧ (small [5]).regs ≠ (busyWith (small [1])).regs ∧
    step { small [1] with script := [.reset [9, 9, 9, 9] Working.zeros] } = .next (small [9, 9, 9, 9]) :=
  ⟨rfl, by decide, rfl⟩

/-- Every way LOST changes. -/
theorem witness_LostFollowsItsRule :
    step (withCmd (busyWith (small [1])) 0x301) = .next { busyWith (small [1]) with lost := true } ∧
    step { small [1] with lost := true, script := [.write .word 0x4008 0x200] } = .next (small [1]) ∧
    step { small [1] with lost := true, script := [.reset [1] Working.zeros] } = .next (small [1]) := ⟨rfl, rfl, rfl⟩

/-- Each of the three result fields changes. -/
theorem witness_ResultFieldsHaveOneWriter :
    RunsTo (.cmp 0 1) (small [2, 1]) { small [2, 1] with cmp := .greater } ∧
    RunsTo (.getbit 0 1) (small [2, 1]) { small [2, 1] with bit := true } ∧
    RunsTo (.iszero 2) (small [2, 1]) { small [2, 1] with zero := true } :=
  ⟨runsTo_of_runCheck (by decide +kernel), runsTo_of_runCheck (by decide +kernel), runsTo_of_runCheck (by decide +kernel)⟩

/-- Each of the four codes that are raised. -/
theorem witness_RaisedErrorWritesOnlyErr :
    RunsTo (.clear 4) (small [2, 1]) { small [2, 1] with err := .illegal } ∧
    RunsTo (.mul 0 0 1) (small [2, 1]) { small [2, 1] with err := .alias_ } ∧
    RunsTo (.setbit 0 16 true) (small [2, 1]) { small [2, 1] with err := .bounds } ∧
    RunsTo (.div none none 0 2) (small [2, 1]) { small [2, 1] with err := .divzero } :=
  ⟨runsTo_of_runCheck (by decide +kernel), runsTo_of_runCheck (by decide +kernel), runsTo_of_runCheck (by decide +kernel),
    runsTo_of_runCheck (by decide +kernel)⟩

theorem witness_CommandWritesOnlyItsDestinations :
    RunsTo (.copy 3 0) (small [2, 1]) (small [2, 1, 0, 2]) ∧ 1 ∉ (Instr.copy 3 0).dests :=
  ⟨runsTo_of_runCheck (by decide +kernel), by decide⟩

/-- Two states that differ in a register the command does not read; and LOADINT on one DATA. -/
theorem witness_CommandDependsOnlyOnWhatItReads :
    (small [2, 1]).Inv ∧ (small [2, 9]).Inv ∧ (∀ r ∈ (Instr.copy 3 0).reads, (small [2, 1]).reg r = (small [2, 9]).reg r) ∧
    RunsTo (.copy 3 0) (small [2, 1]) (small [2, 1, 0, 2]) ∧ RunsTo (.copy 3 0) (small [2, 9]) (small [2, 9, 0, 2]) ∧
    RunsTo (.loadint 0) { small [2, 1] with dataLo := 6 } { small [6, 1] with dataLo := 6 } ∧
    RunsTo (.loadint 0) { small [2, 9] with dataLo := 6 } { small [6, 9] with dataLo := 6 } :=
  ⟨by decide, by decide, by decide, runsTo_of_runCheck (by decide +kernel), runsTo_of_runCheck (by decide +kernel),
    runsTo_of_runCheck (by decide +kernel), runsTo_of_runCheck (by decide +kernel)⟩

/-- B0 alone is defined; the command reads it. -/
theorem witness_DefinedRegistersStayDefined :
    (∀ r ∈ [0], (small [2, 1]).reg r = (small [2, 9]).reg r) ∧ (∀ r ∈ (Instr.copy 3 0).reads, r ∈ [0]) ∧
    RunsTo (.copy 3 0) (small [2, 1]) (small [2, 1, 0, 2]) ∧ RunsTo (.copy 3 0) (small [2, 9]) (small [2, 9, 0, 2]) :=
  ⟨by decide, by decide, runsTo_of_runCheck (by decide +kernel), runsTo_of_runCheck (by decide +kernel)⟩

/-- A step that answers a state, and one that is refused. -/
theorem witness_WorkingRegistersAreUnobservable :
    step (small [1]) = .next (small [1]) ∧ step { small [1] with script := [.read .half 0x4008] } = .refused .accessWidth :=
  ⟨rfl, rfl⟩

/-- SUB with a borrow in an accumulator of just L+1 bits; its result is the one of every wider accumulator. -/
theorem witness_AccumulatorWidthChangesNoResult :
    (small [0, 1]).Inv ∧ (small [0, 1]).build.L + 1 ≤ 9 ∧
    RunsTo (.sub 2 0 1) (small [0, 1])
      { small [0, 1, 65535] with err := .negative, work := { Working.zeros with limbAcc := 511, carry := true } } :=
  ⟨by decide, by decide, runsTo_of_runCheck (by decide +kernel)⟩

/-- An idle state that meets the invariant, with room for every operand of ClearWritesZero, CopyWritesSource,
IszeroTestsWholeValue, CmpGivesUnsignedOrder, ShlOneDoublesModulo and ShrOneHalves; the last register is B3. -/
theorem witness_register_commands :
    (small [65535, 0, 0, 65535]).Inv ∧ (small [65535, 0, 0, 65535]).busy = false ∧ 3 < (small [65535, 0, 0, 65535]).build.K ∧
    (small [65535, 0, 0, 65535]).reg 0 = (small [65535, 0, 0, 65535]).reg 3 ∧
    (small [65535, 0, 0, 65535]).reg 1 < (small [65535, 0, 0, 65535]).reg 0 := by decide

/-- GetbitReadsBitOrReportsBounds and SetbitWritesOneBitOrReportsBounds: index W-1 and index W. -/
theorem witness_bit_commands :
    (small [0x8000]).Inv ∧ (small [0x8000]).busy = false ∧ 0 < (small [0x8000]).build.K ∧
    ¬(small [0x8000]).build.W ≤ 15 ∧ (small [0x8000]).build.W ≤ 16 := by decide

/-- CarryChainRangeAndResult and BorrowChainRangeAndResult: largest operands, a carry out and a borrow out. -/
theorem witness_chains :
    (small []).build.Valid ∧ 65535 < 2 ^ (small []).build.W ∧ (addChain (small []).build 65535 65535 2).carry = 1 ∧
    (subChain (small []).build 0 65535 2).borrow = -1 := by decide +kernel

/-- AddWritesSumAndReportsOverflow: sums 2^W - 1 and 2^W. -/
theorem witness_AddWritesSumAndReportsOverflow :
    (small [65535, 0, 1]).Inv ∧ (small [65535, 0, 1]).busy = false ∧ 3 < (small [65535, 0, 1]).build.K ∧
    ¬2 ^ (small [65535, 0, 1]).build.W ≤ (small [65535, 0, 1]).reg 0 + (small [65535, 0, 1]).reg 1 ∧
    2 ^ (small [65535, 0, 1]).build.W ≤ (small [65535, 0, 1]).reg 0 + (small [65535, 0, 1]).reg 2 := by decide

/-- SubWritesDifferenceAndReportsNegative: equal and less operands, in builds with and without TRAP_NEG. -/
theorem witness_SubWritesDifferenceAndReportsNegative :
    (small [1, 1, 2]).Inv ∧ (reference [1, 1, 2]).Inv ∧ (small [1, 1, 2]).build.trapNeg = true ∧
    (reference [1, 1, 2]).build.trapNeg = false ∧ ¬(small [1, 1, 2]).reg 0 < (small [1, 1, 2]).reg 1 ∧
    (small [1, 1, 2]).reg 0 < (small [1, 1, 2]).reg 2 ∧ (small [1, 1, 2]).busy = false :=
  ⟨by decide, by decide, by decide⟩

/-- LoadintWritesDataAndReportsOverflow: DATA 2^W - 1 and 2^W. -/
theorem witness_LoadintWritesDataAndReportsOverflow :
    State.Inv { small [] with dataLo := 0xFFFF } ∧ State.Inv { small [] with dataLo := 0x10000 } ∧ (small []).busy = false ∧
    3 < (small []).build.K ∧ (0xFFFF : Word).toNat < 2 ^ (small []).build.W ∧
    2 ^ (small []).build.W ≤ (0x10000 : Word).toNat :=
  ⟨by decide, by decide, by decide⟩

/-- MultiplierInvariantAndResult and DividerInvariant: largest operands, the first and the last bit. -/
theorem witness_loops :
    65535 < 2 ^ 16 ∧ Nat.size 0 = 0 ∧ 0 < 65535 ∧ 16 ≤ 16 ∧ (divide 16 65535 65535 Working.zeros).divQ = 1 := by
  refine ⟨by decide, by simp, by decide, by decide, by decide +kernel⟩

/-- MulWritesProductOrReportsAlias: no overlap, and an overlap with each source. -/
theorem witness_MulWritesProductOrReportsAlias :
    (small [256, 256]).Inv ∧ (small [256, 256]).busy = false ∧ 3 < (small [256, 256]).build.K ∧
    ¬((3 : Nat) = 0 ∨ (3 : Nat) = 1) ∧ ((0 : Nat) = 0 ∨ (0 : Nat) = 1) ∧ ((1 : Nat) = 0 ∨ (1 : Nat) = 1) := by decide

/-- DivWritesQuotientAndRemainder: all four output forms exist below K; one register twice; a zero and a non-zero divisor. -/
theorem witness_DivWritesQuotientAndRemainder :
    (small [7, 2, 0]).Inv ∧ (small [7, 2, 0]).busy = false ∧ (∀ q ∈ some 3, q < (small [7, 2, 0]).build.K) ∧
    (∀ q ∈ (none : Option Nat), q < (small [7, 2, 0]).build.K) ∧ (small [7, 2, 0]).reg 1 ≠ 0 ∧ (small [7, 2, 0]).reg 2 = 0 ∧
    (∃ q ∈ [3], some 3 = some q ∧ some 3 = some q) := by decide

/-- PowmodComputesTheLoopValue and PowmodIsExactUnderItsConditions: a zero modulus, and each of the three conditions, the
third at its largest base and modulus. -/
theorem witness_powmod :
    (small [255, 2, 256, 0]).Inv ∧ (small [255, 2, 256, 0]).busy = false ∧ (small [255, 2, 256, 0]).reg 3 = 0 ∧
    (small [255, 2, 256, 0]).reg 2 ≠ 0 ∧
    (2 ≤ (small [255, 2, 256, 0]).reg 1 ∧ (small [255, 2, 256, 0]).reg 0 < 2 ^ ((small []).build.W / 2) ∧
      (small [255, 2, 256, 0]).reg 2 ≤ 2 ^ ((small []).build.W / 2)) ∧
    (small [9, 1, 1]).reg 1 = 1 ∧ ((small [9, 0, 2]).reg 1 = 0 ∧ 2 ≤ (small [9, 0, 2]).reg 2) := by decide

end Sys2Proof.Tests
end

section
/-! PROOFS. The rule of each command as one function of the issue-time snapshot, and the state a command runs to in terms of it:
the layer through which proofs about every command go, so that none of them unfolds a command's own definition. -/

namespace Sys2Proof.Machine

/-- The rule of each command (30_encoding.md R90): its outcome, once the register fields it uses are known to exist.
`exec_eq_execute` says that `exec` runs these rules. -/
def ruleOf : Instr → Snapshot → Working → Execution
  | .clear rd, _, w => Execution.finish .ok [(rd, 0)] w
  | .copy rd ra, c, w => Execution.finish .ok [(rd, c.reg ra)] w
  | .iszero ra, c, w => finishZero ((List.range c.build.N).all fun j => limb c.build.L (c.reg ra) j == 0) w
  | .cmp ra rb, c, w => finishCmp (compareLimbs c.build.L (c.reg ra) (c.reg rb) c.build.N) w
  | .getbit r idx, c, w =>
    if idx ≥ c.build.W then Execution.raise .bounds w else finishBit (bitOf c.build.L (c.reg r) idx) w
  | .setbit r idx val, c, w =>
    if idx ≥ c.build.W then Execution.raise .bounds w
    else Execution.finish .ok [(r, withBit c.build.W (c.reg r) idx val)] w
  | .add rd ra rb, c, w =>
    let sum := addChain c.build (c.reg ra) (c.reg rb) c.build.N
    Execution.finish (overflowStatus (sum.carry != 0)) [(rd, sum.low)]
      { w with limbAcc := sum.acc, carry := sum.carry != 0 }
  | .sub rd ra rb, c, w =>
    let diff := subChain c.build (c.reg ra) (c.reg rb) c.build.N
    Execution.finish (negativeStatus c.build.trapNeg (diff.borrow != 0)) [(rd, diff.low)]
      { w with limbAcc := (diff.acc % 2 ^ c.build.accBits).toNat, carry := diff.borrow != 0 }
  | .shl1 rd ra, c, w => Execution.finish .ok [(rd, (shlChain c.build (c.reg ra) c.build.N).low)] w
  | .shr1 rd ra, c, w => Execution.finish .ok [(rd, shrChain c.build (c.reg ra) c.build.N 0)] w
  | .mul rd ra rb, c, w =>
    if rd = ra ∨ rd = rb then Execution.raise .alias_ w
    else
      let w' := multiply c.build.W (c.reg ra) (c.reg rb) w
      Execution.finish .ok [(rd, w'.mulAcc)] w'
  | .div quot rem ra rb, c, w =>
    if sameOutput quot rem then Execution.raise .alias_ w
    else if c.reg rb = 0 then Execution.raise .divzero w
    else
      let w' := divide c.build.W (c.reg ra) (c.reg rb) w
      Execution.finish .ok (quot.toList.map (·, w'.divQ) ++ rem.toList.map (·, w'.divR)) w'
  | .powmod rd ra rb rc, c, w =>
    if c.reg rc = 0 then Execution.raise .divzero w
    else
      let w' := powMod c.build.W (c.reg ra) (c.reg rb) (c.reg rc) w
      Execution.finish .ok [(rd, w'.powRes)] w'
  | .loadint rd, c, w =>
    let x := loadLimbs c.build c.build.N c.data.toNat
    Execution.finish (overflowStatus x.ovf) [(rd, x.out)] w

/-- The check against K depends on which fields are used, not on their order. -/
theorem checked_congr {fields fields' : List Nat} (h : ∀ f, f ∈ fields ↔ f ∈ fields') :
    checked fields = checked fields' := by
  funext c w run
  have hall : fields.all (fun f => decide (f < c.build.K)) = fields'.all (fun f => decide (f < c.build.K)) := by
    rw [Bool.eq_iff_iff]
    simp [h]
  rw [checked, checked, hall]

/-- Every command is the check of the fields it uses, then its rule (30_encoding.md R90). -/
theorem exec_eq_execute (i : Instr) (s : State) : exec i s = execute i.uses (ruleOf i) s := by
  cases i
  case div quot rem ra rb =>
    have hfields : ∀ f, f ∈ ra :: rb :: (quot.toList ++ rem.toList) ↔ f ∈ (Instr.div quot rem ra rb).uses := by
      intro f
      simp only [Instr.uses, List.mem_cons, List.mem_append, List.not_mem_nil]
      tauto
    rw [execute_eq, ← checked_congr hfields]
    rfl
  all_goals rfl

/-- The outcome of command `i` issued in `s`. -/
def outcomeOf (i : Instr) (s : State) : Execution := checked i.uses s.snapshot s.work (ruleOf i)

theorem exec_eq_issue_outcome (i : Instr) (s : State) : exec i s = .next (s.issue (outcomeOf i s)) :=
  exec_eq_execute i s

/-- Either a used field names no register and the outcome is ILLEGAL, or the rule runs (30_encoding.md R86, R90). -/
theorem outcomeOf_cases (i : Instr) (s : State) :
    outcomeOf i s = Execution.raise .illegal s.work ∨
      (∀ f ∈ i.uses, f < s.build.K) ∧ outcomeOf i s = ruleOf i s.snapshot s.work := by
  by_cases h : ∀ f ∈ i.uses, f < s.build.K
  · exact .inr ⟨h, checked_of_lt h _ _⟩
  · push Not at h
    exact .inl (checked_of_le h _ _)

/-- The idle state `s` once outcome `x` has been issued and committed. -/
def State.completed (s : State) (x : Execution) : State :=
  { s with
    regs := applyWrites x.pending.writes s.regs
    cmp := x.pending.cmp.getD s.cmp
    bit := x.pending.bit.getD s.bit
    zero := x.pending.zero.getD s.zero
    err := x.pending.err
    work := x.work }

/-- A command runs from every idle state, and to one state: its outcome, issued and committed. -/
theorem runsTo_iff {i : Instr} {s t : State} :
    RunsTo i s t ↔ s.busy = false ∧ t = s.completed (outcomeOf i s) := by
  have hruns (hb : s.busy = false) : RunsTo i s (s.completed (outcomeOf i s)) :=
    runsTo_of_execute (exec_eq_execute i s) hb rfl
  constructor
  · intro h
    exact ⟨h.1, runsTo_unique h (hruns h.1)⟩
  · rintro ⟨hb, rfl⟩
    exact hruns hb

/-- Unless it raises an error, a rule stages exactly one write to each destination of R21, in their order. -/
theorem ruleOf_writes {i : Instr} {c : Snapshot} {w : Working} (h : (ruleOf i c w).pending.err.raised = false) :
    (ruleOf i c w).pending.writes.map Prod.fst = i.dests := by
  cases i
  case getbit | setbit | mul | powmod =>
    simp only [ruleOf] at h ⊢
    split
    · simp_all [ErrCode.raised]
    · rfl
  case div quot rem ra rb =>
    simp only [ruleOf] at h ⊢
    split
    · simp_all [ErrCode.raised]
    · split
      · simp_all [ErrCode.raised]
      · simp [Instr.dests, Function.comp_def]
  all_goals rfl

/-- A write to each destination is staged unless an error is raised, in the outcome as in the rule. -/
theorem outcomeOf_writes {i : Instr} {s : State} (h : (outcomeOf i s).pending.err.raised = false) :
    (outcomeOf i s).pending.writes.map Prod.fst = i.dests := by
  obtain hx | ⟨-, hx⟩ := outcomeOf_cases i s
  · rw [hx] at h
    cases h
  · rw [hx] at h ⊢
    exact ruleOf_writes h

/-- Registers of the same number that a staged write names hold the same value after the staged writes. -/
theorem applyWrites_getD_of_mem {ws : List (Nat × Nat)} {r : Nat} (h : r ∈ ws.map Prod.fst) {regs regs' : List Nat}
    (hlen : regs.length = regs'.length) : (applyWrites ws regs).getD r 0 = (applyWrites ws regs').getD r 0 := by
  induction ws generalizing regs regs' with
  | nil => simp at h
  | cons p ps ih =>
    by_cases hr : r ∈ ps.map Prod.fst
    · exact ih hr (by simp [hlen])
    · have hlast : ∀ x ∈ ps, x.1 ≠ r := fun x hx hxr => hr (hxr ▸ List.mem_map_of_mem hx)
      have hp : p.1 = r := by simp_all
      rw [applyWrites_cons, applyWrites_cons, applyWrites_getD_of_not_mem hlast, applyWrites_getD_of_not_mem hlast]
      simp [List.getD_eq_getElem?_getD, hp, List.getElem?_set, hlen]

end Sys2Proof.Machine
end

section
/-! PROOFS. The chains of ADD and SUB (41_linear.md R140 to R143): with an accumulator of at least L + 1 bits no accumulation wraps,
so the chain does not depend on the accumulator's width; and the stored limbs make a value of as many limbs. -/

namespace Sys2Proof.Machine

/-- One more limb `d` above a value of `j` limbs. -/
theorem add_limb_lt {b : Build} {low d j : Nat} (hlow : low < 2 ^ (b.L * j)) (hd : d < b.base) :
    low + d * b.base ^ j < 2 ^ (b.L * (j + 1)) := by
  rw [← base_pow] at hlow ⊢
  calc low + d * b.base ^ j < (d + 1) * b.base ^ j := by rw [Nat.add_mul]; omega
    _ ≤ b.base * b.base ^ j := Nat.mul_le_mul_right _ hd
    _ = b.base ^ (j + 1) := (Nat.pow_succ').symm

/-- Every carry is 0 or 1 (R141). -/
theorem addChain_carry_le_one (b : Build) (x y j : Nat) : (addChain b x y j).carry ≤ 1 := by
  induction j with
  | zero => exact Nat.zero_le _
  | succ j ih =>
    have hx := limb_lt b.L x j
    have hy := limb_lt b.L y j
    rw [addChain, Nat.shiftRight_eq_div_pow]
    have hacc := Nat.mod_le (limb b.L x j + limb b.L y j + (addChain b x y j).carry) (2 ^ b.accBits)
    exact Nat.lt_succ_iff.mp (Nat.div_lt_of_lt_mul (by omega))

/-- No accumulation of the carry chain wraps (R141). -/
theorem addChain_acc_succ {b : Build} (h : b.L + 1 ≤ b.accBits) (x y j : Nat) :
    (limb b.L x j + limb b.L y j + (addChain b x y j).carry) % 2 ^ b.accBits =
      limb b.L x j + limb b.L y j + (addChain b x y j).carry := by
  have hx := limb_lt b.L x j
  have hy := limb_lt b.L y j
  have hc := addChain_carry_le_one b x y j
  have hpow : 2 ^ (b.L + 1) ≤ 2 ^ b.accBits := Nat.pow_le_pow_right (by norm_num) h
  rw [Nat.pow_succ] at hpow
  exact Nat.mod_eq_of_lt (by omega)

/-- The carry chain does not depend on the accumulator's width (00_scope.md R6). -/
theorem addChain_accBits {b : Build} {n : Nat} (h : b.L + 1 ≤ b.accBits) (hn : b.L + 1 ≤ n) (x y j : Nat) :
    addChain { b with accBits := n } x y j = addChain b x y j := by
  induction j with
  | zero => rfl
  | succ j ih =>
    have hwide := addChain_acc_succ (b := { b with accBits := n }) hn x y j
    rw [ih] at hwide
    simp only [addChain, ih, hwide, addChain_acc_succ h]
    rfl

theorem addChain_low_lt (b : Build) (x y j : Nat) : (addChain b x y j).low < 2 ^ (b.L * j) := by
  induction j with
  | zero => simp [addChain]
  | succ j ih =>
    refine add_limb_lt ih ?_
    rw [Build.limbMax, Nat.and_two_pow_sub_one_eq_mod]
    exact Nat.mod_lt _ (Nat.two_pow_pos _)

theorem addChain_acc_lt (b : Build) (x y j : Nat) : (addChain b x y j).acc < 2 ^ b.accBits := by
  cases j with
  | zero => exact Nat.two_pow_pos _
  | succ j => exact Nat.mod_lt _ (Nat.two_pow_pos _)

/-- The range of one accumulation of the borrow chain (R143). -/
theorem sub_limb_range (L x y j : Nat) {borrow : Int} (h : borrow = 0 ∨ borrow = -1) :
    -(2 : Int) ^ L ≤ (limb L x j : Int) - limb L y j + borrow ∧ (limb L x j : Int) - limb L y j + borrow < 2 ^ L := by
  have hx : (limb L x j : Int) < 2 ^ L := by exact_mod_cast limb_lt L x j
  have hy : (limb L y j : Int) < 2 ^ L := by exact_mod_cast limb_lt L y j
  omega

/-- A value in the accumulator's range is the same in every accumulator of at least L + 1 bits. -/
theorem bmod_two_pow_of_range {L n : Nat} (h : L + 1 ≤ n) {v : Int} (hv : -(2 : Int) ^ L ≤ v ∧ v < 2 ^ L) :
    v.bmod (2 ^ n) = v := by
  obtain ⟨k, rfl⟩ := Nat.exists_eq_add_of_le' h
  have hpow : (2 : Int) ^ (k + (L + 1)) = 2 * 2 ^ (k + L) := by rw [← Nat.add_assoc, pow_succ, Int.mul_comm]
  have hle : (2 : Int) ^ L ≤ 2 ^ (k + L) := pow_le_pow_right₀ (by norm_num) (by omega)
  apply Int.bmod_eq_of_le <;> push_cast <;> omega

/-- The borrow out of an accumulation in range is 0 or -1 (R143). -/
theorem ediv_two_pow_of_range {L : Nat} {v : Int} (hv : -(2 : Int) ^ L ≤ v ∧ v < 2 ^ L) :
    v / (2 : Int) ^ L = 0 ∨ v / (2 : Int) ^ L = -1 := by
  have hpos : (0 : Int) < 2 ^ L := by positivity
  have hlo : -1 ≤ v / (2 : Int) ^ L := (Int.le_ediv_iff_mul_le hpos).mpr (by omega)
  have hhi : v / (2 : Int) ^ L < 1 := (Int.ediv_lt_iff_lt_mul hpos).mpr (by omega)
  omega

/-- Every borrow is 0 or -1 (R143). -/
theorem subChain_borrow {b : Build} (h : b.L + 1 ≤ b.accBits) (x y j : Nat) :
    (subChain b x y j).borrow = 0 ∨ (subChain b x y j).borrow = -1 := by
  induction j with
  | zero => exact .inl rfl
  | succ j ih =>
    have hrange := sub_limb_range b.L x y j ih
    simp only [subChain, bmod_two_pow_of_range h hrange, Build.base, Nat.cast_pow, Nat.cast_ofNat]
    exact ediv_two_pow_of_range hrange

/-- No accumulation of the borrow chain wraps (R143). -/
theorem subChain_acc_succ {b : Build} (h : b.L + 1 ≤ b.accBits) (x y j : Nat) :
    ((limb b.L x j : Int) - limb b.L y j + (subChain b x y j).borrow).bmod (2 ^ b.accBits) =
      (limb b.L x j : Int) - limb b.L y j + (subChain b x y j).borrow :=
  bmod_two_pow_of_range h (sub_limb_range b.L x y j (subChain_borrow h x y j))

/-- The borrow chain does not depend on the accumulator's width (00_scope.md R6). -/
theorem subChain_accBits {b : Build} {n : Nat} (h : b.L + 1 ≤ b.accBits) (hn : b.L + 1 ≤ n) (x y j : Nat) :
    subChain { b with accBits := n } x y j = subChain b x y j := by
  induction j with
  | zero => rfl
  | succ j ih =>
    have hwide := subChain_acc_succ (b := { b with accBits := n }) hn x y j
    rw [ih] at hwide
    simp only [subChain, ih, hwide, subChain_acc_succ h]
    rfl

theorem subChain_low_lt (b : Build) (x y j : Nat) : (subChain b x y j).low < 2 ^ (b.L * j) := by
  induction j with
  | zero => simp [subChain]
  | succ j ih =>
    refine add_limb_lt ih ?_
    have hbase : (0 : Int) < b.base := by exact_mod_cast Nat.two_pow_pos b.L
    exact (Int.toNat_lt_of_ne_zero (by omega)).mpr (Int.emod_lt_of_pos _ hbase)

end Sys2Proof.Machine
end

section
/-! PROOFS. The working registers under the multiplier, the divider and POWMOD's engine (42_composite.md R170, R175; 43_modexp.md
R200): each loop keeps every register within its width, and what it computes does not depend on what they held before. -/

namespace Sys2Proof.Machine

theorem Build.Valid.L_pos {b : Build} (h : b.Valid) : 0 < b.L := by
  obtain ⟨hL, -⟩ := h
  omega

theorem Build.Valid.W_pos {b : Build} (h : b.Valid) : 0 < b.W := by
  obtain ⟨-, hN, -⟩ := id h
  exact Nat.mul_pos hN (Build.Valid.L_pos h)

/-! ### Widths (10_state.md R40) -/

theorem mulPass_ok {b : Build} {w : Working} (h : w.Ok b) : (mulPass b.W w).Ok b := by
  obtain ⟨hacc, hmul, hx, hy, hrest⟩ := h
  refine ⟨hacc, ?_, lt_of_le_of_lt (Nat.shiftRight_le _ _) hx, Nat.mod_lt _ (Nat.two_pow_pos _), hrest⟩
  show (if w.mulX.testBit 0 then (w.mulAcc + w.mulY) % 2 ^ b.W else w.mulAcc) < 2 ^ b.W
  split
  · exact Nat.mod_lt _ (Nat.two_pow_pos _)
  · exact hmul

theorem mulLoop_ok {b : Build} (n : Nat) {w : Working} (h : w.Ok b) : (mulLoop b.W n w).Ok b := by
  induction n generalizing w with
  | zero => exact h
  | succ n ih =>
    rw [mulLoop]
    split
    · exact h
    · exact ih (mulPass_ok h)

theorem multiply_ok {b : Build} {x y : Nat} (hx : x < 2 ^ b.W) (hy : y < 2 ^ b.W) {w : Working} (h : w.Ok b) :
    (multiply b.W x y w).Ok b := by
  obtain ⟨hacc, -, -, -, hrest⟩ := h
  exact mulLoop_ok _ ⟨hacc, Nat.two_pow_pos _, hx, hy, hrest⟩

theorem divPass_ok {b : Build} (x y : Nat) {i : Nat} (hi : i < b.W) {w : Working} (h : w.Ok b) :
    (divPass b.W x y i w).Ok b := by
  obtain ⟨hacc, hmul, hx, hy, hR, hQ, hrest⟩ := h
  have hbit : (x.testBit i).toNat < 2 ^ b.W :=
    lt_of_le_of_lt (Bool.toNat_le _) (Nat.one_lt_two_pow (by omega))
  have hshifted : (w.divR <<< 1) % 2 ^ b.W ||| (x.testBit i).toNat < 2 ^ b.W :=
    Nat.or_lt_two_pow (Nat.mod_lt _ (Nat.two_pow_pos _)) hbit
  have hone : 1 <<< i < 2 ^ b.W := by
    rw [Nat.shiftLeft_eq, Nat.one_mul]
    exact Nat.pow_lt_pow_right (by norm_num) hi
  simp only [divPass]
  split
  · exact ⟨hacc, hmul, hx, hy, Nat.mod_lt _ (Nat.two_pow_pos _), Nat.or_lt_two_pow hQ hone, hrest⟩
  · exact ⟨hacc, hmul, hx, hy, hshifted, hQ, hrest⟩

theorem divLoop_ok {b : Build} (x y : Nat) {i : Nat} (hi : i ≤ b.W) {w : Working} (h : w.Ok b) :
    (divLoop b.W x y i w).Ok b := by
  induction i generalizing w with
  | zero => exact h
  | succ i ih => exact ih (by omega) (divPass_ok x y hi h)

theorem divide_ok {b : Build} (x y : Nat) {w : Working} (h : w.Ok b) : (divide b.W x y w).Ok b := by
  obtain ⟨hacc, hmul, hx, hy, -, -, hrest⟩ := h
  exact divLoop_ok x y le_rfl ⟨hacc, hmul, hx, hy, Nat.two_pow_pos _, Nat.two_pow_pos _, hrest⟩

theorem mulMod_ok {b : Build} {x y : Nat} (hx : x < 2 ^ b.W) (hy : y < 2 ^ b.W) (z : Nat) {w : Working} (h : w.Ok b) :
    (mulMod b.W x y z w).Ok b :=
  divide_ok _ _ (multiply_ok hx hy h)

theorem powMultiply_ok {b : Build} (z : Nat) {w : Working} (h : w.Ok b) : (powMultiply b.W z w).Ok b := by
  have ⟨_, _, _, _, _, _, hres, hbs, _⟩ := h
  unfold powMultiply
  split
  · obtain ⟨hacc, hmul, hx, hy, hR, hQ, -, hrest⟩ := mulMod_ok hres hbs z h
    exact ⟨hacc, hmul, hx, hy, hR, hQ, hR, hrest⟩
  · exact h

theorem powSquare_ok {b : Build} (z : Nat) {w : Working} (h : w.Ok b) : (powSquare b.W z w).Ok b := by
  have ⟨_, _, _, _, _, _, _, hbs, _⟩ := h
  obtain ⟨hacc, hmul, hx, hy, hR, hQ, hres, -, he⟩ := mulMod_ok hbs hbs z h
  exact ⟨hacc, hmul, hx, hy, hR, hQ, hres, hR, lt_of_le_of_lt (Nat.shiftRight_le _ _) he⟩

theorem powLoop_ok {b : Build} (z n : Nat) {w : Working} (h : w.Ok b) : (powLoop b.W z n w).Ok b := by
  induction n generalizing w with
  | zero => exact h
  | succ n ih =>
    rw [powLoop]
    split
    · exact h
    · exact ih (powSquare_ok z (powMultiply_ok z h))

theorem powMod_ok {b : Build} (hW : 0 < b.W) {x y : Nat} (hx : x < 2 ^ b.W) (hy : y < 2 ^ b.W) (z : Nat) {w : Working}
    (h : w.Ok b) : (powMod b.W x y z w).Ok b := by
  obtain ⟨hacc, hmul, hmx, hmy, hR, hQ, -⟩ := h
  exact powLoop_ok z _ ⟨hacc, hmul, hmx, hmy, hR, hQ, Nat.one_lt_two_pow (by omega), hx, hy⟩

/-! ### Independence of the contents before -/

/-- The multiplier's loop changes its own three registers, to values that those three alone decide. -/
theorem mulLoop_eq_update (W n acc x y : Nat) :
    ∃ acc' x' y', ∀ w : Working,
      mulLoop W n { w with mulAcc := acc, mulX := x, mulY := y } = { w with mulAcc := acc', mulX := x', mulY := y' } := by
  induction n generalizing acc x y with
  | zero => exact ⟨acc, x, y, fun _ => rfl⟩
  | succ n ih =>
    by_cases hx : x = 0
    · exact ⟨acc, x, y, fun _ => if_pos hx⟩
    · obtain ⟨acc', x', y', hloop⟩ :=
        ih (if x.testBit 0 then (acc + y) % 2 ^ W else acc) (x >>> 1) ((y <<< 1) % 2 ^ W)
      exact ⟨acc', x', y', fun w => (if_neg hx).trans (hloop w)⟩

theorem multiply_eq_update (W a b : Nat) :
    ∃ acc x y, ∀ w, multiply W a b w = { w with mulAcc := acc, mulX := x, mulY := y } :=
  mulLoop_eq_update W W 0 a b

/-- The divider's loop changes R and Q, to values that those two alone decide. -/
theorem divLoop_eq_update (W a b i R Q : Nat) :
    ∃ R' Q', ∀ w : Working, divLoop W a b i { w with divR := R, divQ := Q } = { w with divR := R', divQ := Q' } := by
  induction i generalizing R Q with
  | zero => exact ⟨R, Q, fun _ => rfl⟩
  | succ i ih =>
    by_cases hge : (R <<< 1) % 2 ^ W ||| (a.testBit i).toNat ≥ b
    · obtain ⟨R', Q', hloop⟩ := ih ((((R <<< 1) % 2 ^ W ||| (a.testBit i).toNat) - b) % 2 ^ W) (Q ||| (1 <<< i))
      exact ⟨R', Q', fun w => (congrArg (divLoop W a b i) (if_pos hge)).trans (hloop w)⟩
    · obtain ⟨R', Q', hloop⟩ := ih ((R <<< 1) % 2 ^ W ||| (a.testBit i).toNat) Q
      exact ⟨R', Q', fun w => (congrArg (divLoop W a b i) (if_neg hge)).trans (hloop w)⟩

theorem divide_eq_update (W a b : Nat) : ∃ R Q, ∀ w, divide W a b w = { w with divR := R, divQ := Q } :=
  divLoop_eq_update W a b W 0 0

/-- MUL then DIV changes the registers of the multiplier and the divider, to values that its operands alone decide. -/
theorem mulMod_eq_update (W a b c : Nat) :
    ∃ acc x y R Q, ∀ w, mulMod W a b c w = { w with mulAcc := acc, mulX := x, mulY := y, divR := R, divQ := Q } := by
  obtain ⟨acc, x, y, hmul⟩ := multiply_eq_update W a b
  obtain ⟨R, Q, hdiv⟩ := divide_eq_update W acc c
  refine ⟨acc, x, y, R, Q, fun w => ?_⟩
  simp only [mulMod, hmul, hdiv]

/-- POWMOD's three registers alone. -/
def powRegs (w : Working) : Nat × Nat × Nat := (w.powRes, w.powBs, w.powE)

theorem powMultiply_powRegs (W c : Nat) {w w' : Working} (h : powRegs w = powRegs w') :
    powRegs (powMultiply W c w) = powRegs (powMultiply W c w') := by
  obtain ⟨hres, hbs, he⟩ : w.powRes = w'.powRes ∧ w.powBs = w'.powBs ∧ w.powE = w'.powE := by simpa [powRegs] using h
  obtain ⟨acc, x, y, R, Q, hm⟩ := mulMod_eq_update W w'.powRes w'.powBs c
  unfold powMultiply
  rw [hres, hbs, he]
  split
  · simp [powRegs, hm, hbs, he]
  · exact h

theorem powSquare_powRegs (W c : Nat) {w w' : Working} (h : powRegs w = powRegs w') :
    powRegs (powSquare W c w) = powRegs (powSquare W c w') := by
  obtain ⟨hres, hbs, he⟩ : w.powRes = w'.powRes ∧ w.powBs = w'.powBs ∧ w.powE = w'.powE := by simpa [powRegs] using h
  obtain ⟨acc, x, y, R, Q, hm⟩ := mulMod_eq_update W w'.powBs w'.powBs c
  simp [powRegs, powSquare, hbs, hm, hres, he]

/-- POWMOD's loop computes its three registers from those three alone. -/
theorem powLoop_powRegs (W c n : Nat) {w w' : Working} (h : powRegs w = powRegs w') :
    powRegs (powLoop W c n w) = powRegs (powLoop W c n w') := by
  induction n generalizing w w' with
  | zero => exact h
  | succ n ih =>
    have he : w.powE = w'.powE := congrArg (fun p => p.2.2) h
    rw [powLoop, powLoop, he]
    split
    · exact h
    · exact ih (powSquare_powRegs W c (powMultiply_powRegs W c h))

theorem powMod_powRes (W a b c : Nat) (w w' : Working) : (powMod W a b c w).powRes = (powMod W a b c w').powRes :=
  congrArg Prod.fst (powLoop_powRegs W c W (w := { w with powRes := 1, powBs := a, powE := b })
    (w' := { w' with powRes := 1, powBs := a, powE := b }) rfl)

end Sys2Proof.Machine
end

section
/-! PROOFS. What a rule's outcome depends on: not on the working registers, not on the accumulator's width, and on no operand
register but those the command reads. -/

namespace Sys2Proof.Machine

/-- A rule's outcome does not depend on the working registers (10_state.md R40). -/
theorem ruleOf_pending_work (i : Instr) (c : Snapshot) (w w' : Working) :
    (ruleOf i c w).pending = (ruleOf i c w').pending := by
  cases i
  case getbit | setbit =>
    simp only [ruleOf]
    split <;> rfl
  case mul rd ra rb =>
    obtain ⟨acc, x, y, hm⟩ := multiply_eq_update c.build.W (c.reg ra) (c.reg rb)
    simp only [ruleOf, hm]
    split <;> rfl
  case div quot rem ra rb =>
    obtain ⟨R, Q, hd⟩ := divide_eq_update c.build.W (c.reg ra) (c.reg rb)
    simp only [ruleOf, hd]
    split
    · rfl
    · split <;> rfl
  case powmod rd ra rb rc =>
    simp only [ruleOf]
    split
    · rfl
    · simp only [finish_pending, powMod_powRes _ _ _ _ w w']
  all_goals rfl

theorem W_accBits (b : Build) (n : Nat) : Build.W { b with accBits := n } = b.W := rfl

theorem shlChain_accBits (b : Build) (n a j : Nat) : shlChain { b with accBits := n } a j = shlChain b a j := by
  induction j with
  | zero => rfl
  | succ j ih => rw [shlChain, ih]; rfl

theorem shrChain_accBits (b : Build) (n a j c : Nat) : shrChain { b with accBits := n } a j c = shrChain b a j c := by
  induction j generalizing c with
  | zero => rfl
  | succ j ih => rw [shrChain, ih]; rfl

theorem loadLimbs_accBits (b : Build) (n j t : Nat) : loadLimbs { b with accBits := n } j t = loadLimbs b j t := by
  induction j generalizing t with
  | zero => rfl
  | succ j ih => rw [loadLimbs, ih]; rfl

/-- A rule's outcome is the same on snapshots of builds that differ in ACC_BITS alone (00_scope.md R6), if they agree on the
registers the command reads and, for LOADINT, on DATA (10_state.md R21). -/
theorem ruleOf_pending_congr {i : Instr} {c c' : Snapshot} {n : Nat} (w w' : Working)
    (hacc : c.build.L + 1 ≤ c.build.accBits) (hn : c.build.L + 1 ≤ n) (hbuild : c'.build = { c.build with accBits := n })
    (hreads : ∀ r ∈ i.reads, c.reg r = c'.reg r) (hdata : (∃ rd, i = .loadint rd) → c.data = c'.data) :
    (ruleOf i c w).pending = (ruleOf i c' w').pending := by
  rw [ruleOf_pending_work i c w w']
  cases i
  case clear => rfl
  case loadint rd => simp only [ruleOf, ← hdata ⟨rd, rfl⟩, hbuild, loadLimbs_accBits]
  all_goals
    simp only [Instr.reads, List.forall_mem_cons, List.not_mem_nil, false_imp_iff, implies_true, and_true] at hreads
  case add => simp only [ruleOf, hreads, hbuild, addChain_accBits hacc hn, finish_pending]
  case sub => simp only [ruleOf, hreads, hbuild, subChain_accBits hacc hn, finish_pending]
  case shl1 => simp only [ruleOf, hreads, hbuild, shlChain_accBits]
  case shr1 => simp only [ruleOf, hreads, hbuild, shrChain_accBits]
  case copy | iszero | cmp => simp only [ruleOf, hreads, hbuild]
  case getbit | setbit | mul | div | powmod => simp only [ruleOf, hreads, hbuild, W_accBits]

end Sys2Proof.Machine
end

section
/-! PROOFS. The invariant (10_state.md R20, R40; 60_exceptions.md R223): every rule leaves a legal outcome and legal working
registers, so issue, commit, reset and every event keep it. -/

namespace Sys2Proof.Machine

/-! ### Outcomes -/

/-- An OK outcome without register writes, as ISZERO, CMP and GETBIT leave it. -/
theorem pending_ok_of_no_writes {b : Build} {p : Pending} (hws : p.writes = []) (he : p.err = .ok) : p.Ok b :=
  ⟨by simp [hws], by simp [he, ErrCode.raised], by simp [he]⟩

theorem finish_pending_ok {b : Build} {e : ErrCode} {ws : List (Nat × Nat)} (he : e.raised = false)
    (hneg : e = .negative → b.trapNeg = true) (hws : ∀ x ∈ ws, x.1 < b.K ∧ x.2 < 2 ^ b.W) (w : Working) :
    (Execution.finish e ws w).pending.Ok b :=
  ⟨hws, fun h => absurd (he.symm.trans h) (by simp), hneg⟩

/-- A rule that writes one register and finishes with OK. -/
theorem finish_one_ok {b : Build} {r v : Nat} (hr : r < b.K) (hv : v < 2 ^ b.W) (w : Working) :
    (Execution.finish .ok [(r, v)] w).pending.Ok b :=
  finish_pending_ok rfl (by simp) (by simp [hr, hv]) w

@[simp] theorem overflowStatus_raised (o : Bool) : (overflowStatus o).raised = false := by cases o <;> rfl

theorem overflowStatus_ne_negative (o : Bool) : overflowStatus o ≠ .negative := by cases o <;> decide

@[simp] theorem negativeStatus_raised (t o : Bool) : (negativeStatus t o).raised = false := by
  cases t <;> cases o <;> rfl

theorem negativeStatus_eq_negative {t o : Bool} (h : negativeStatus t o = .negative) : t = true := by
  cases t
  · cases o <;> cases h
  · rfl

theorem toNat_emod_two_pow_lt (v : Int) (n : Nat) : (v % 2 ^ n).toNat < 2 ^ n := by
  have hlt : v % 2 ^ n < 2 ^ n := Int.emod_lt_of_pos _ (by positivity)
  have hcast : ((2 ^ n : Nat) : Int) = 2 ^ n := by push_cast; rfl
  have := Nat.two_pow_pos n
  omega

/-- A rule's outcome and the working registers it leaves are legal. -/
abbrev Execution.Ok (b : Build) (x : Execution) : Prop := x.pending.Ok b ∧ x.work.Ok b

theorem raise_ok {b : Build} {e : ErrCode} (he : e ≠ .negative) {w : Working} (hw : w.Ok b) :
    (Execution.raise e w).Ok b :=
  ⟨⟨by simp, fun _ => ⟨rfl, rfl, rfl, rfl⟩, fun h => absurd h he⟩, hw⟩

/-- On a snapshot of an admitted build with W-bit registers, the rule of a command whose fields exist is legal. -/
theorem ruleOf_ok {i : Instr} {c : Snapshot} {w : Working} (hb : c.build.Valid) (hreg : ∀ r, c.reg r < 2 ^ c.build.W)
    (hw : w.Ok c.build) (hf : ∀ f ∈ i.uses, f < c.build.K) : (ruleOf i c w).Ok c.build := by
  have hL := Build.Valid.L_pos hb
  have hW : c.build.W = c.build.L * c.build.N := W_eq c.build
  cases i with
  | clear rd => exact ⟨finish_one_ok (hf rd (by simp [Instr.uses])) (Nat.two_pow_pos _) _, hw⟩
  | copy rd ra => exact ⟨finish_one_ok (hf rd (by simp [Instr.uses])) (hreg ra) _, hw⟩
  | iszero ra => exact ⟨pending_ok_of_no_writes rfl rfl, hw⟩
  | cmp ra rb => exact ⟨pending_ok_of_no_writes rfl rfl, hw⟩
  | getbit r idx =>
    rw [ruleOf]
    split
    · exact raise_ok (by decide) hw
    · exact ⟨pending_ok_of_no_writes rfl rfl, hw⟩
  | setbit r idx val =>
    rw [ruleOf]
    split
    · exact raise_ok (by decide) hw
    · rename_i hidx
      exact ⟨finish_one_ok (hf r (by simp [Instr.uses])) (withBit_lt (Nat.lt_of_not_le hidx) val) _, hw⟩
  | add rd ra rb =>
    obtain ⟨-, hrest⟩ := hw
    have hlow := addChain_low_lt c.build (c.reg ra) (c.reg rb) c.build.N
    have hrd := hf rd (by simp [Instr.uses])
    exact ⟨finish_pending_ok (overflowStatus_raised _) (fun h => absurd h (overflowStatus_ne_negative _))
      (by simp [hrd, hW, hlow]) _, addChain_acc_lt _ _ _ _, hrest⟩
  | sub rd ra rb =>
    obtain ⟨-, hrest⟩ := hw
    have hlow := subChain_low_lt c.build (c.reg ra) (c.reg rb) c.build.N
    have hrd := hf rd (by simp [Instr.uses])
    exact ⟨finish_pending_ok (negativeStatus_raised _ _) negativeStatus_eq_negative (by simp [hrd, hW, hlow]) _,
      toNat_emod_two_pow_lt _ _, hrest⟩
  | shl1 rd ra =>
    have hlow : (shlChain c.build (c.reg ra) c.build.N).low < 2 ^ c.build.W := by
      rw [shlChain_low c.build hL, hW]
      exact Nat.mod_lt _ (Nat.two_pow_pos _)
    exact ⟨finish_one_ok (hf rd (by simp [Instr.uses])) hlow _, hw⟩
  | shr1 rd ra =>
    have hlow : shrChain c.build (c.reg ra) c.build.N 0 < 2 ^ c.build.W := by
      rw [shrChain_eq c.build hL _ _ _ (Nat.zero_le 1), ← hW, Nat.mod_eq_of_lt (hreg ra), Nat.zero_mul, Nat.add_zero]
      exact lt_of_le_of_lt (Nat.div_le_self _ _) (hreg ra)
    exact ⟨finish_one_ok (hf rd (by simp [Instr.uses])) hlow _, hw⟩
  | mul rd ra rb =>
    rw [ruleOf]
    split
    · exact raise_ok (by decide) hw
    · have hok := multiply_ok (hreg ra) (hreg rb) hw
      have ⟨_, hacc, _⟩ := hok
      exact ⟨finish_one_ok (hf rd (by simp [Instr.uses])) hacc _, hok⟩
  | div quot rem ra rb =>
    simp only [ruleOf]
    split
    · exact raise_ok (by decide) hw
    · split
      · exact raise_ok (by decide) hw
      · have hok := divide_ok (c.reg ra) (c.reg rb) hw
        have ⟨_, _, _, _, hR, hQ, _⟩ := hok
        have hq (q) (h : q ∈ quot.toList) : q < c.build.K := hf q (by simp_all [Instr.uses])
        have hr (r) (h : r ∈ rem.toList) : r < c.build.K := hf r (by simp_all [Instr.uses])
        refine ⟨finish_pending_ok rfl (by simp) (fun x hx => ?_) _, hok⟩
        rw [List.mem_append, List.mem_map, List.mem_map] at hx
        obtain ⟨q, hmem, rfl⟩ | ⟨r, hmem, rfl⟩ := hx
        · exact ⟨hq q hmem, hQ⟩
        · exact ⟨hr r hmem, hR⟩
  | powmod rd ra rb rc =>
    rw [ruleOf]
    split
    · exact raise_ok (by decide) hw
    · have hok := powMod_ok (Build.Valid.W_pos hb) (hreg ra) (hreg rb) (c.reg rc) hw
      have ⟨_, _, _, _, _, _, hres, _⟩ := hok
      exact ⟨finish_one_ok (hf rd (by simp [Instr.uses])) hres _, hok⟩
  | loadint rd =>
    have hout : (loadLimbs c.build c.build.N c.data.toNat).out < 2 ^ c.build.W := by
      rw [(loadLimbs_eq c.build _ _).1, hW]
      exact Nat.mod_lt _ (Nat.two_pow_pos _)
    have hrd := hf rd (by simp [Instr.uses])
    exact ⟨finish_pending_ok (overflowStatus_raised _) (fun h => absurd h (overflowStatus_ne_negative _))
      (by simp [hrd, hout]) _, hw⟩

/-- The outcome of every command issued in a state that meets the invariant is legal. -/
theorem outcomeOf_ok {s : State} (h : s.Inv) (i : Instr) : (outcomeOf i s).Ok s.build := by
  have ⟨hb, _, _, _, hw, _⟩ := h
  obtain hx | ⟨hf, hx⟩ := outcomeOf_cases i s
  · rw [hx]
    exact raise_ok (by decide) hw
  · rw [hx]
    exact ruleOf_ok hb (State.reg_lt h) hw hf

/-! ### The updates of the state -/

theorem issue_inv {s : State} (h : s.Inv) {x : Execution} (hx : x.Ok s.build) : (s.issue x).Inv := by
  obtain ⟨hb, hlen, hlt, -, -, herr⟩ := id h
  obtain ⟨hp, hw⟩ := hx
  cases hbusy : s.busy with
  | true => rw [State.issue_of_busy hbusy]; exact h
  | false =>
    rw [State.issue_of_idle hbusy]
    exact ⟨hb, hlen, hlt, fun p hp' => by cases hp'; exact hp, hw, herr⟩

theorem commit_inv {s : State} (h : s.Inv) : s.commit.Inv := by
  obtain ⟨hb, hlen, hlt, hp, hw, -⟩ := id h
  cases hpend : s.pending with
  | none => rw [State.commit_of_none hpend]; exact h
  | some p =>
    obtain ⟨hws, -, hneg⟩ := hp p hpend
    rw [State.commit_of_some hpend]
    exact ⟨hb, (applyWrites_length _ _).trans hlen, applyWrites_lt (fun x hx => (hws x hx).2) hlt,
      by simp, hw, hneg⟩

theorem fit_ok (b : Build) (w : Working) : (w.fit b).Ok b := by
  have hlt (v n : Nat) : v % 2 ^ n < 2 ^ n := Nat.mod_lt _ (Nat.two_pow_pos _)
  exact ⟨hlt _ _, hlt _ _, hlt _ _, hlt _ _, hlt _ _, hlt _ _, hlt _ _, hlt _ _, hlt _ _⟩

theorem resetOf_inv {b : Build} {regs : List Nat} {work : Working} (hb : b.Valid) (hlen : regs.length = b.K)
    (hlt : ∀ v ∈ regs, v < 2 ^ b.W) (hw : work.Ok b) : (State.resetOf b regs work).Inv :=
  ⟨hb, hlen, hlt, by simp [State.resetOf], hw, by simp [State.resetOf]⟩

theorem resetEvent_inv {s : State} (h : s.Inv) (regs : List Nat) (work : Working) : (s.resetEvent regs work).Inv := by
  obtain ⟨hb, -⟩ := h
  exact resetOf_inv hb (resetRegs_length _ _) (resetRegs_lt _ _) (fit_ok _ _)

/-- The issue of any word keeps the invariant, decoded or ILLEGAL. -/
theorem issueWord_inv {s t : State} (h : s.Inv) {v : Word} (hv : issueWord v s = .next t) : t.Inv := by
  unfold issueWord at hv
  split at hv
  · rename_i i _
    rw [exec_eq_issue_outcome] at hv
    cases hv
    exact issue_inv h (outcomeOf_ok h i)
  · have ⟨_, _, _, _, hw, _⟩ := h
    cases hv
    exact issue_inv h (raise_ok (by decide) hw)

theorem react_inv {s t : State} (h : s.Inv) {e : Event} (he : react e s = .next t) : t.Inv := by
  obtain ⟨_, _, _, -, rfl⟩ | ⟨_, _, _, _, _, _, _, _, -, -, rfl⟩ | ⟨_, _, _, _, -, -, hv, -⟩ | ⟨-, rfl⟩ |
    ⟨regs, work, -, rfl⟩ := react_cases he
  · exact h
  · exact h
  · exact issueWord_inv h hv
  · exact commit_inv h
  · exact resetEvent_inv h regs work

/-- A step is the block's turn, when the script is used up, or the first event of the script. -/
theorem step_cases {s t : State} (h : step s = .next t) :
    s.script = [] ∧ t = s.commit ∨
      ∃ e rest, s.script = e :: rest ∧ react e { s with script := rest } = .next t := by
  cases hs : s.script with
  | nil =>
    rw [step_of_nil hs] at h
    cases h
    exact .inl ⟨rfl, rfl⟩
  | cons e rest => exact .inr ⟨e, rest, rfl, by rw [← step_of_cons hs, h]⟩

/-- Settles O20: each case of a step keeps the invariant, the issue of a command because its outcome is legal. -/
theorem stepKeepsInvariant : Obligations.StepKeepsInvariant := by
  intro s t h hstep
  obtain ⟨-, rfl⟩ | ⟨e, rest, -, he⟩ := step_cases hstep
  · exact commit_inv h
  · have hmoved : State.Inv { s with script := rest } := h
    exact react_inv hmoved he

/-- Settles O19. The model's own reset state is the case of the reference build with zeros. -/
theorem resetMeetsInvariant : Obligations.ResetMeetsInvariant := by
  refine ⟨fun b regs work hb hlen hlt hw => resetOf_inv hb hlen hlt hw, ?_⟩
  exact resetOf_inv (by decide) (List.length_replicate) (by decide) (by decide)

end Sys2Proof.Machine
end

section
/-! PROOFS. What every event and every step leave unchanged (10_state.md R15, R31; 20_memory.md R55, R56). -/

namespace Sys2Proof.Machine

/-- Settles O10: a read changes what the host has received, a write one of the host's own registers, and a word written to CMD
only LOST, since the block is busy. -/
theorem hostCannotDisturbPendingCommand : Obligations.HostCannotDisturbPendingCommand := by
  intro s t e hbusy hblock hreset he
  obtain ⟨_, _, _, -, rfl⟩ | ⟨_, _, _, _, _, _, _, _, -, -, rfl⟩ | ⟨_, _, _, x, -, -, -, rfl⟩ | ⟨rfl, -⟩ |
    ⟨regs, work, rfl, -⟩ := react_cases he
  · simp
  · simp
  · simp [State.issue_of_busy hbusy]
  · exact absurd rfl hblock
  · exact absurd rfl (hreset regs work)

theorem react_build {s t : State} {e : Event} (he : react e s = .next t) : t.build = s.build := by
  obtain ⟨_, _, _, -, rfl⟩ | ⟨_, _, _, _, _, _, _, _, -, -, rfl⟩ | ⟨_, _, _, x, -, -, -, rfl⟩ | ⟨-, rfl⟩ |
    ⟨regs, work, -, rfl⟩ := react_cases he
  · rfl
  · rfl
  · exact State.issue_build s x
  · exact State.commit_build s
  · rfl

/-- Settles O21. CONFIG reads the build alone. -/
theorem stepKeepsBuild : Obligations.StepKeepsBuild := by
  intro s t h
  have hbuild : t.build = s.build := by
    obtain ⟨-, rfl⟩ | ⟨e, rest, -, he⟩ := step_cases h
    · exact State.commit_build s
    · exact (react_build he :)
  exact ⟨hbuild, congrArg configWord hbuild⟩

/-- A commit changes a register only if a command is pending. -/
theorem busy_of_commit_regs_ne {s : State} (h : s.commit.regs ≠ s.regs) : s.busy = true := by
  by_contra hidle
  exact h (by rw [State.commit_of_idle (by simpa using hidle)])

/-- Only the block's turn with a command pending, or a reset, changes a register. -/
theorem react_regs_ne {s t : State} {e : Event} (he : react e s = .next t) (h : t.regs ≠ s.regs) :
    (s.busy = true ∧ e = .block) ∨ ∃ regs work, e = .reset regs work := by
  obtain ⟨_, _, _, -, rfl⟩ | ⟨_, _, _, _, _, _, _, _, -, -, rfl⟩ | ⟨_, _, _, x, -, -, -, rfl⟩ | ⟨rfl, rfl⟩ |
    ⟨regs, work, rfl, -⟩ := react_cases he
  · exact absurd rfl h
  · exact absurd rfl h
  · exact absurd (State.issue_regs s x) h
  · exact .inl ⟨busy_of_commit_regs_ne h, rfl⟩
  · exact .inr ⟨regs, work, rfl⟩

/-- Settles O22. -/
theorem onlyCommitOrResetWritesRegisters : Obligations.OnlyCommitOrResetWritesRegisters := by
  intro s t h hregs
  obtain ⟨hnil, rfl⟩ | ⟨e, rest, hs, he⟩ := step_cases h
  · exact .inl ⟨busy_of_commit_regs_ne hregs, .inl hnil⟩
  · rw [hs]
    obtain ⟨hbusy, rfl⟩ | ⟨regs, work, rfl⟩ := react_regs_ne he hregs
    · exact .inl ⟨hbusy, .inr rfl⟩
    · exact .inr ⟨regs, work, rfl⟩

end Sys2Proof.Machine
end

section
/-! PROOFS. LIMB_DATA (10_state.md R35) and the value its N limbs make (20_memory.md R57). -/

namespace Sys2Proof.Machine

/-- The low `n` limbs, each at its weight (00_scope.md R12). -/
theorem sum_limbs (L v n : Nat) :
    ((List.range n).map fun j => limb L v j * 2 ^ (L * j)).sum = v % 2 ^ (L * n) := by
  induction n with
  | zero => simp [Nat.mod_one]
  | succ n ih => rw [List.range_succ, List.map_append, List.sum_append, ih, mod_succ_limb]; simp

/-- LIMB_DATA reads the selected limb, if the register and the limb exist (R35). -/
theorem limbData_toNat {s : State} (hb : s.build.Valid) (hr : s.limbSelReg.toNat < s.build.K)
    (hj : s.limbSelLimb.toNat < s.build.N) :
    s.limbData.toNat = limb s.build.L (s.reg s.limbSelReg.toNat) s.limbSelLimb.toNat := by
  have hL : s.build.L ≤ 32 := by
    obtain ⟨hL, -⟩ := hb
    omega
  have hlimb := lt_of_lt_of_le (limb_lt s.build.L (s.reg s.limbSelReg.toNat) s.limbSelLimb.toNat)
    (Nat.pow_le_pow_right (by norm_num) hL)
  rw [State.limbData, if_pos ⟨hr, hj⟩, BitVec.toNat_ofNat, Nat.mod_eq_of_lt hlimb]

/-- LIMB_DATA with limb `j` of register `r` selected: 4 and 16 bits hold every register and limb number. -/
theorem limbData_selected {s : State} (hb : s.build.Valid) {r j : Nat} (hr : r < s.build.K) (hj : j < s.build.N) :
    (State.limbData { s with limbSelReg := BitVec.ofNat 4 r, limbSelLimb := BitVec.ofNat 16 j }).toNat =
      limb s.build.L (s.reg r) j := by
  obtain ⟨-, -, hN, -, -, hK, -⟩ := id hb
  have hselReg : (BitVec.ofNat 4 r).toNat = r := by rw [BitVec.toNat_ofNat, Nat.mod_eq_of_lt (by omega)]
  have hselLimb : (BitVec.ofNat 16 j).toNat = j := by rw [BitVec.toNat_ofNat, Nat.mod_eq_of_lt (by omega)]
  have hread := limbData_toNat (s := { s with limbSelReg := BitVec.ofNat 4 r, limbSelLimb := BitVec.ofNat 16 j }) hb
    (by simpa only [hselReg] using hr) (by simpa only [hselLimb] using hj)
  rw [hread, hselReg, hselLimb]
  rfl

/-- Settles O15: each read gives its limb, and the limbs sum to a W-bit value. -/
theorem limbReadsGiveWholeOperand : Obligations.LimbReadsGiveWholeOperand := by
  intro s r h hr
  have ⟨hb, _⟩ := h
  have hread : ∀ j ∈ List.range s.build.N,
      (State.limbData { s with limbSelReg := BitVec.ofNat 4 r, limbSelLimb := BitVec.ofNat 16 j }).toNat *
        2 ^ (s.build.L * j) = limb s.build.L (s.reg r) j * 2 ^ (s.build.L * j) := by
    intro j hj
    rw [limbData_selected hb hr (List.mem_range.mp hj)]
  rw [List.map_congr_left hread, sum_limbs, ← W_eq, Nat.mod_eq_of_lt (State.reg_lt h r)]

end Sys2Proof.Machine
end

section
/-! PROOFS. What a command's result depends on: the registers it reads (10_state.md R21), and not the accumulator's width
(00_scope.md R6). -/

namespace Sys2Proof.Machine

/-- `ruleOf_pending_congr` for the outcome, the check against K included. -/
theorem outcomeOf_pending_congr {i : Instr} {s t : State} {n : Nat} (hb : s.build.Valid) (hn : s.build.L + 1 ≤ n)
    (hbuild : t.build = { s.build with accBits := n }) (hreads : ∀ r ∈ i.reads, s.reg r = t.reg r)
    (hdata : (∃ rd, i = .loadint rd) → s.dataLo = t.dataLo ∧ s.dataHi = t.dataHi) :
    (outcomeOf i s).pending = (outcomeOf i t).pending := by
  obtain ⟨-, -, -, -, -, -, hacc⟩ := hb
  have hK : t.build.K = s.build.K := by rw [hbuild]
  have hsnap : (∃ rd, i = .loadint rd) → s.snapshot.data = t.snapshot.data := by
    intro hi
    obtain ⟨hlo, hhi⟩ := hdata hi
    simp only [State.snapshot, hlo, hhi]
  by_cases hf : ∀ f ∈ i.uses, f < s.build.K
  · rw [outcomeOf, outcomeOf, checked_of_lt hf, checked_of_lt (by simpa [hK] using hf)]
    exact ruleOf_pending_congr _ _ hacc hn hbuild hreads hsnap
  · push Not at hf
    rw [outcomeOf, outcomeOf, checked_of_le hf, checked_of_le (by simpa [hK] using hf)]
    rfl

/-- Settles O27: one outcome is committed to both states, and every destination is among its writes. -/
theorem commandDependsOnlyOnWhatItReads : Obligations.CommandDependsOnlyOnWhatItReads := by
  intro i s t s' t' hs ht hbuild hreads hdata hrs hrt
  obtain ⟨hb, hlen, -⟩ := hs
  obtain ⟨-, hlen', -⟩ := ht
  obtain ⟨-, rfl⟩ := runsTo_iff.mp hrs
  obtain ⟨-, rfl⟩ := runsTo_iff.mp hrt
  have hacc : s.build.L + 1 ≤ s.build.accBits := by
    obtain ⟨-, -, -, -, -, -, h⟩ := hb
    exact h
  have hp : (outcomeOf i s).pending = (outcomeOf i t).pending :=
    outcomeOf_pending_congr hb hacc hbuild.symm hreads hdata
  have hregs : s.regs.length = t.regs.length := by rw [hlen, hlen', hbuild]
  simp only [State.completed, ← hp]
  refine ⟨trivial, fun r hr hok => ?_, fun h => by rw [h], fun h => by rw [h], fun h => by rw [h]⟩
  exact applyWrites_getD_of_mem (outcomeOf_writes hok ▸ hr) hregs

/-- `s` in the build with an accumulator of `n` bits. -/
def State.withAccBits (s : State) (n : Nat) : State := { s with build := { s.build with accBits := n } }

/-- Outcomes that agree but for the working registers complete alike, whatever the accumulator's width. -/
theorem completed_withAccBits {s : State} {n : Nat} {x x' : Execution} (h : x.pending = x'.pending) :
    { (s.completed x).withAccBits n with work := x'.work } = (s.withAccBits n).completed x' := by
  rw [State.completed, State.completed, h]
  rfl

/-- Settles O30: the outcome is the same, so its commit is, working registers apart. -/
theorem accumulatorWidthChangesNoResult : Obligations.AccumulatorWidthChangesNoResult := by
  intro i s s' n hs hn hrun
  obtain ⟨hb, -⟩ := hs
  obtain ⟨hidle, rfl⟩ := runsTo_iff.mp hrun
  have hp : (outcomeOf i s).pending = (outcomeOf i (s.withAccBits n)).pending :=
    outcomeOf_pending_congr hb hn rfl (fun _ _ => rfl) (fun _ => ⟨rfl, rfl⟩)
  exact ⟨(outcomeOf i (s.withAccBits n)).work, runsTo_iff.mpr ⟨hidle, completed_withAccBits hp⟩⟩

end Sys2Proof.Machine
end

section
/-! PROOFS. No program can observe a working register (10_state.md R40): every operation takes states that differ only in the
working registers to states that differ only in them. -/

namespace Sys2Proof.Machine

/-- `s` with `w` in its working registers. -/
def State.withWork (s : State) (w : Working) : State := { s with work := w }

@[simp] theorem State.withWork_build (s : State) (w : Working) : (s.withWork w).build = s.build := rfl

@[simp] theorem State.withWork_snapshot (s : State) (w : Working) : (s.withWork w).snapshot = s.snapshot := rfl

/-- Two answers of a step that are the same, the working registers apart. -/
inductive AgreeButWork : Host.Outcome State Fault Refusal → Host.Outcome State Fault Refusal → Prop
  | next (t : State) (w : Working) : AgreeButWork (.next t) (.next (t.withWork w))
  | refused (why : Refusal) : AgreeButWork (.refused why) (.refused why)

theorem AgreeButWork.of_next {t : State} {o : Host.Outcome State Fault Refusal} (h : AgreeButWork (.next t) o) :
    ∃ w, o = .next (t.withWork w) := by
  cases h with
  | next _ w => exact ⟨w, rfl⟩

theorem AgreeButWork.of_refused {why : Refusal} {o : Host.Outcome State Fault Refusal}
    (h : AgreeButWork (.refused why) o) : o = .refused why := by
  cases h with
  | refused _ => rfl

/-- Outcomes that commit alike leave issued states that differ only in the working registers. -/
theorem issue_agreeButWork (s : State) (w : Working) {x x' : Execution} (h : x.pending = x'.pending) :
    AgreeButWork (.next (s.issue x)) (.next ((s.withWork w).issue x')) := by
  cases hb : s.busy with
  | true =>
    rw [State.issue_of_busy hb, State.issue_of_busy (s := s.withWork w) hb]
    exact .next _ w
  | false =>
    rw [State.issue_of_idle hb, State.issue_of_idle (s := s.withWork w) hb, ← h]
    exact .next _ x'.work

/-- What a command will commit does not depend on the working registers, whether its rule runs or it is ILLEGAL. -/
theorem outcomeOf_pending_work (i : Instr) (s : State) (w : Working) :
    (outcomeOf i s).pending = (outcomeOf i (s.withWork w)).pending := by
  by_cases hf : ∀ f ∈ i.uses, f < s.snapshot.build.K
  · rw [outcomeOf, outcomeOf, State.withWork_snapshot, checked_of_lt hf, checked_of_lt hf]
    exact ruleOf_pending_work i _ _ _
  · push Not at hf
    rw [outcomeOf, outcomeOf, State.withWork_snapshot, checked_of_le hf, checked_of_le hf]
    rfl

theorem issueWord_agreeButWork (v : Word) (s : State) (w : Working) :
    AgreeButWork (issueWord v s) (issueWord v (s.withWork w)) := by
  unfold issueWord
  cases decode v with
  | command i =>
    simp only [exec_eq_issue_outcome]
    exact issue_agreeButWork s w (outcomeOf_pending_work i s w)
  | illegal why => exact issue_agreeButWork s w rfl

theorem hostWrite_agreeButWork (r : WindowReg) (v : Word) (s : State) (w : Working) :
    AgreeButWork (hostWrite r v s) (hostWrite r v (s.withWork w)) := by
  cases r with
  | cmd => exact issueWord_agreeButWork v s w
  | status =>
    simp only [hostWrite]
    split
    · exact .next _ w
    · exact .next _ w
  | config | reserved | limbData | dataLo | dataHi | limbSel => exact .next _ w

/-- No register of the window shows a working register (20_memory.md R52). -/
theorem hostRead_withWork (s : State) (w : Working) (r : WindowReg) : (s.withWork w).hostRead r = s.hostRead r := by
  cases r <;> rfl

theorem commit_withWork (s : State) (w : Working) : (s.withWork w).commit = s.commit.withWork w := by
  cases hp : s.pending with
  | none => rw [State.commit_of_none hp, State.commit_of_none (s := s.withWork w) hp]
  | some p =>
    rw [State.commit_of_some hp, State.commit_of_some (s := s.withWork w) hp]
    rfl

theorem commit_agreeButWork (s : State) (w : Working) :
    AgreeButWork (.next s.commit) (.next (s.withWork w).commit) := by
  rw [commit_withWork]
  exact .next _ w

theorem react_agreeButWork (e : Event) (s : State) (w : Working) :
    AgreeButWork (react e s) (react e (s.withWork w)) := by
  cases e with
  | read width addr =>
    simp only [react, State.withWork_build, hostRead_withWork]
    cases windowAccess s.build width addr with
    | ok r => exact .next _ w
    | error why => exact .refused why
  | write width addr v =>
    simp only [react, State.withWork_build]
    cases windowAccess s.build width addr with
    | ok r => exact hostWrite_agreeButWork r v s w
    | error why => exact .refused why
  | block => exact commit_agreeButWork s w
  | reset regs work => exact .next (s.resetEvent regs work) (work.fit s.build)

theorem step_agreeButWork (s : State) (w : Working) : AgreeButWork (step s) (step (s.withWork w)) := by
  cases hs : s.script with
  | nil =>
    rw [step_of_nil hs, step_of_nil (s := s.withWork w) hs]
    exact commit_agreeButWork s w
  | cons e rest =>
    rw [step_of_cons hs, step_of_cons (s := s.withWork w) hs]
    exact react_agreeButWork e { s with script := rest } w

/-- Settles O29: the two answers agree but for the working registers, so each form of answer is met by the same form. -/
theorem workingRegistersAreUnobservable : Obligations.WorkingRegistersAreUnobservable := by
  intro s w
  have h := step_agreeButWork s w
  refine ⟨fun t ht => ?_, fun why hwhy => ?_⟩
  · rw [ht] at h
    exact h.of_next
  · rw [hwhy] at h
    exact h.of_refused

end Sys2Proof.Machine
end

section
/-! PROOFS. LOST over every event (10_state.md R29), and which accesses reach which window register (20_memory.md R50). -/

namespace Sys2Proof.Machine

/-- The register at an offset is the one whose offset it is (20_memory.md R50). -/
theorem windowReg_eq_some_iff {off : Nat} {r : WindowReg} : windowReg off = some r ↔ off = windowOffset r := by
  constructor
  · intro h
    unfold windowReg at h
    split at h <;> cases h <;> rfl
  · rintro rfl
    cases r <;> rfl

/-- An access reaches a register iff it is a 32-bit one at that register's address (20_memory.md R50, R54). -/
theorem windowAccess_eq_ok_iff {b : Build} {width : Width} {addr : Nat} {r : WindowReg} :
    windowAccess b width addr = .ok r ↔ width = .word ∧ addr = b.windowBase + windowOffset r := by
  rw [windowAccess_eq_ok, windowReg_eq_some_iff]
  exact and_congr_right fun _ => by omega

/-- A write at a register's address is that register's write. -/
theorem react_write_windowOffset (r : WindowReg) (v : Word) (s : State) :
    react (.write .word (s.build.windowBase + windowOffset r) v) s = hostWrite r v s := by
  simp only [react, windowAccess_eq_ok_iff.mpr ⟨rfl, rfl⟩]

/-- Issue sets LOST if the block is busy, and else leaves it (20_memory.md R55). -/
@[simp] theorem State.issue_lost (s : State) (x : Execution) : (s.issue x).lost = (s.lost || s.busy) := by
  cases hb : s.busy with
  | true => simp [State.issue_of_busy hb]
  | false => simp [State.issue_of_idle hb]

theorem hostWrite_cmd_lost {v : Word} {s t : State} (h : hostWrite .cmd v s = .next t) :
    t.lost = (s.lost || s.busy) := by
  obtain ⟨x, hx⟩ := issueWord_eq_issue v s
  cases hx.symm.trans h
  exact State.issue_lost s x

theorem hostWrite_status_lost {v : Word} {s t : State} (h : hostWrite .status v s = .next t) :
    t.lost = (s.lost && !v.getLsbD 9) := by
  cases h
  cases hv : v.getLsbD 9 <;> simp

/-- A write to any other register leaves LOST as it is. -/
theorem hostWrite_lost_of_ne {r : WindowReg} {v : Word} {s t : State} (hcmd : r ≠ .cmd) (hstatus : r ≠ .status)
    (h : hostWrite r v s = .next t) : t.lost = s.lost := by
  cases r with
  | cmd => exact absurd rfl hcmd
  | status => exact absurd rfl hstatus
  | config | reserved | limbData | dataLo | dataHi | limbSel => cases h; rfl

/-- The events that can change LOST: a write to CMD, a write to STATUS, and a reset. -/
theorem react_lost_ne {e : Event} {s t : State} (h : react e s = .next t) (hlost : t.lost ≠ s.lost) :
    (∃ w, e = .write .word (s.build.windowBase + windowOffset .cmd) w) ∨
      (∃ v, e = .write .word (s.build.windowBase + windowOffset .status) v) ∨ ∃ regs work, e = .reset regs work := by
  cases e with
  | read width addr =>
    simp only [react] at h
    split at h
    · cases h
      exact absurd rfl hlost
    · cases h
  | write width addr v =>
    simp only [react] at h
    split at h
    · rename_i r hr
      obtain ⟨rfl, rfl⟩ := windowAccess_eq_ok_iff.mp hr
      by_cases hcmd : r = .cmd
      · exact .inl ⟨v, by rw [hcmd]⟩
      · by_cases hstatus : r = .status
        · exact .inr (.inl ⟨v, by rw [hstatus]⟩)
        · exact absurd (hostWrite_lost_of_ne hcmd hstatus h) hlost
    · cases h
  | block =>
    cases h
    exact absurd (State.commit_lost s) hlost
  | reset regs work => exact .inr (.inr ⟨regs, work, rfl⟩)

/-- Settles O23: with no event left the step is a commit, which leaves LOST; else the first event decides. -/
theorem lostFollowsItsRule : Obligations.LostFollowsItsRule := by
  intro s t h
  obtain ⟨hnil, rfl⟩ | ⟨e, rest, hs, he⟩ := step_cases h
  · simp [hnil]
  · simp only [hs, List.head?_cons, Option.some.injEq]
    refine ⟨?_, ?_, ?_, (react_lost_ne he :)⟩
    · rintro w rfl
      exact (hostWrite_cmd_lost ((react_write_windowOffset .cmd w { s with script := rest }).symm.trans he) :)
    · rintro v rfl
      exact (hostWrite_status_lost ((react_write_windowOffset .status v { s with script := rest }).symm.trans he) :)
    · rintro regs work rfl
      cases he
      rfl

end Sys2Proof.Machine
end

section
/-! PROOFS. The forms of a command's outcome (00_scope.md R13), and from them what its commit can write: the result fields
(10_state.md R36) and the operand registers (R21). -/

namespace Sys2Proof.Machine

/-- The forms of an outcome of command `i` issued with working registers `w`: it raises an error, finishes with register
writes alone, or is the one command of its kind that writes a result field. -/
inductive OutcomeForm (i : Instr) (w : Working) : Execution → Prop
  | raise (e : ErrCode) (he : e.raised = true) : OutcomeForm i w (Execution.raise e w)
  | finish (e : ErrCode) (ws : List (Nat × Nat)) (w' : Working) (he : e.raised = false) :
    OutcomeForm i w (Execution.finish e ws w')
  | zero (ra : Nat) (z : Bool) (hi : i = .iszero ra) : OutcomeForm i w (finishZero z w)
  | cmp (ra rb : Nat) (c : CmpResult) (hi : i = .cmp ra rb) : OutcomeForm i w (finishCmp c w)
  | bit (r idx : Nat) (v : Bool) (hi : i = .getbit r idx) : OutcomeForm i w (finishBit v w)

theorem ruleOf_form (i : Instr) (c : Snapshot) (w : Working) : OutcomeForm i w (ruleOf i c w) := by
  cases i with
  | iszero ra => exact .zero ra _ rfl
  | cmp ra rb => exact .cmp ra rb _ rfl
  | getbit r idx =>
    rw [ruleOf]
    split
    · exact .raise _ rfl
    · exact .bit r idx _ rfl
  | setbit | mul | powmod =>
    rw [ruleOf]
    split
    · exact .raise _ rfl
    · exact .finish _ _ _ rfl
  | div quot rem ra rb =>
    rw [ruleOf]
    split
    · exact .raise _ rfl
    · split
      · exact .raise _ rfl
      · exact .finish _ _ _ rfl
  | add rd ra rb => exact .finish _ _ _ (overflowStatus_raised _)
  | sub rd ra rb => exact .finish _ _ _ (negativeStatus_raised _ _)
  | loadint rd => exact .finish _ _ _ (overflowStatus_raised _)
  | clear | copy | shl1 | shr1 => exact .finish _ _ _ rfl

theorem outcomeOf_form (i : Instr) (s : State) : OutcomeForm i s.work (outcomeOf i s) := by
  obtain hx | ⟨-, hx⟩ := outcomeOf_cases i s
  · rw [hx]
    exact .raise _ rfl
  · rw [hx]
    exact ruleOf_form i _ _

/-! ### Result fields (10_state.md R36) -/

theorem OutcomeForm.of_cmp {i : Instr} {w : Working} {x : Execution} (h : OutcomeForm i w x) (hx : x.pending.cmp ≠ none) :
    (∃ ra rb, i = .cmp ra rb) ∧ x.pending.err = .ok := by
  cases h with
  | cmp ra rb c hi => exact ⟨⟨ra, rb, hi⟩, rfl⟩
  | raise | finish | zero | bit => exact absurd rfl hx

theorem OutcomeForm.of_bit {i : Instr} {w : Working} {x : Execution} (h : OutcomeForm i w x) (hx : x.pending.bit ≠ none) :
    (∃ r idx, i = .getbit r idx) ∧ x.pending.err = .ok := by
  cases h with
  | bit r idx v hi => exact ⟨⟨r, idx, hi⟩, rfl⟩
  | raise | finish | zero | cmp => exact absurd rfl hx

theorem OutcomeForm.of_zero {i : Instr} {w : Working} {x : Execution} (h : OutcomeForm i w x)
    (hx : x.pending.zero ≠ none) : (∃ ra, i = .iszero ra) ∧ x.pending.err = .ok := by
  cases h with
  | zero ra z hi => exact ⟨⟨ra, hi⟩, rfl⟩
  | raise | finish | bit | cmp => exact absurd rfl hx

/-- A field that a commit changes is one its outcome stages. -/
theorem staged_of_getD_ne {α : Type} {staged : Option α} {old : α} (h : staged.getD old ≠ old) : staged ≠ none := by
  rintro rfl
  exact h rfl

/-- Settles O24: a changed field was staged, and the outcome's form says by which command. -/
theorem resultFieldsHaveOneWriter : Obligations.ResultFieldsHaveOneWriter := by
  intro i s t hrun
  obtain ⟨-, rfl⟩ := runsTo_iff.mp hrun
  have hform := outcomeOf_form i s
  exact ⟨fun h => hform.of_cmp (staged_of_getD_ne h), fun h => hform.of_bit (staged_of_getD_ne h),
    fun h => hform.of_zero (staged_of_getD_ne h)⟩

/-! ### Operand registers (10_state.md R21) -/

/-- A raised error discards every staged write (60_exceptions.md R223). -/
theorem OutcomeForm.writes_of_raised {i : Instr} {w : Working} {x : Execution} (h : OutcomeForm i w x)
    (hx : x.pending.err.raised = true) : x.pending.writes = [] := by
  cases h with
  | finish e ws w' he => exact absurd (he.symm.trans hx) (by decide)
  | raise | zero | bit | cmp => rfl

/-- Every staged write names a destination of R21. -/
theorem outcomeOf_writes_subset {i : Instr} {s : State} {x : Nat × Nat} (hx : x ∈ (outcomeOf i s).pending.writes) :
    x.1 ∈ i.dests := by
  cases hraised : (outcomeOf i s).pending.err.raised with
  | true => simp [(outcomeOf_form i s).writes_of_raised hraised] at hx
  | false => exact outcomeOf_writes hraised ▸ List.mem_map_of_mem hx

/-- Settles O26: a register that is no destination is named by no staged write, and no commit writes the host's own. -/
theorem commandWritesOnlyItsDestinations : Obligations.CommandWritesOnlyItsDestinations := by
  intro i s t hrun
  obtain ⟨-, rfl⟩ := runsTo_iff.mp hrun
  refine ⟨fun r hr => ?_, applyWrites_length _ _, rfl, rfl, rfl, rfl, rfl, rfl⟩
  have hunnamed : ∀ x ∈ (outcomeOf i s).pending.writes, x.1 ≠ r := by
    rintro x hx rfl
    exact hr (outcomeOf_writes_subset hx)
  exact applyWrites_getD_of_not_mem hunnamed s.regs

end Sys2Proof.Machine
end

section
/-! PROOFS. What the host reads right after reset (70_reset_and_hazards.md R250). -/

namespace Sys2Proof.Machine

/-- Every status field is 0 after reset, so STATUS is (10_state.md R23). -/
theorem resetOf_statusWord (b : Build) (regs : List Nat) (work : Working) : (State.resetOf b regs work).statusWord = 0 := by
  simp only [State.statusWord, State.busy, State.resetOf]
  decide

/-- Both selectors are 0 after reset, so LIMB_SEL is (10_state.md R34). -/
theorem resetOf_limbSel (b : Build) (regs : List Nat) (work : Working) :
    (State.resetOf b regs work).hostRead .limbSel = 0 := by
  simp only [State.hostRead, State.resetOf]
  decide

/-- CONFIG of the reference build (10_state.md R31). -/
theorem configWord_reference : configWord Config.reference = 0x07100004 := by decide

/-- Settles O18. -/
theorem resetStateReadsAsStated : Obligations.ResetStateReadsAsStated := by
  intro regs work
  exact ⟨configWord_reference, rfl, resetOf_statusWord _ _ _, rfl, rfl, rfl, resetOf_limbSel _ _ _, rfl⟩

end Sys2Proof.Machine
end

section
/-! PROOFS. The window's accesses, one by one: which are admitted (20_memory.md R51, R54), what a read gives (R52), what a write
does (R53), and where the bytes of a register lie (R58). -/

namespace Sys2Proof.Machine

/-! ### Which accesses are admitted -/

/-- The register offsets are the multiples of 4 below 32 (20_memory.md R50). -/
theorem exists_windowOffset_eq_iff {off : Nat} : (∃ r, off = windowOffset r) ↔ off < 32 ∧ 4 ∣ off := by
  constructor
  · rintro ⟨r, hr⟩
    exact windowReg_some (windowReg_eq_some_iff.mpr hr)
  · rintro ⟨hlt, k, rfl⟩
    have hk : k < 8 := by omega
    interval_cases k
    exacts [⟨.config, rfl⟩, ⟨.reserved, rfl⟩, ⟨.status, rfl⟩, ⟨.cmd, rfl⟩, ⟨.dataLo, rfl⟩, ⟨.dataHi, rfl⟩,
      ⟨.limbSel, rfl⟩, ⟨.limbData, rfl⟩]

/-- An access reaches some register iff it is an aligned 32-bit one inside the window (20_memory.md R51, R54). -/
theorem exists_windowAccess_eq_ok_iff {b : Build} {width : Width} {addr : Nat} :
    (∃ r, windowAccess b width addr = .ok r) ↔
      width = .word ∧ b.windowBase ≤ addr ∧ addr < b.windowBase + 32 ∧ 4 ∣ addr - b.windowBase := by
  simp only [windowAccess_eq_ok, windowReg_eq_some_iff, exists_and_left, exists_windowOffset_eq_iff]
  refine and_congr_right fun _ => and_congr_right fun hbase => ?_
  rw [Nat.sub_lt_iff_lt_add' hbase]

/-- A read is answered iff it reaches a register. -/
theorem react_read_eq_next_iff {s : State} {width : Width} {addr : Nat} :
    (∃ t, react (.read width addr) s = .next t) ↔ ∃ r, windowAccess s.build width addr = .ok r := by
  cases h : windowAccess s.build width addr with
  | ok r => simp [react, h]
  | error why => simp [react, h]

/-- A write is answered iff it reaches a register. -/
theorem react_write_eq_next_iff {s : State} {width : Width} {addr : Nat} {v : Word} :
    (∃ t, react (.write width addr v) s = .next t) ↔ ∃ r, windowAccess s.build width addr = .ok r := by
  cases h : windowAccess s.build width addr with
  | ok r =>
    have hadmitted : (Event.write width addr v).admitted s.build = true := by simp [Event.admitted, h, Except.toBool]
    simpa using react_next hadmitted
  | error why => simp [react, h]

/-- Settles O14: an access is answered iff it reaches a register; and no reason for a fault exists. -/
theorem onlyAlignedWordAccessesAreAdmitted : Obligations.OnlyAlignedWordAccessesAreAdmitted := by
  intro s width addr v
  exact ⟨react_read_eq_next_iff.trans exists_windowAccess_eq_ok_iff,
    react_write_eq_next_iff.trans exists_windowAccess_eq_ok_iff, nofun, nofun⟩

/-! ### Writes -/

/-- A step whose event is the write at a register's address is that register's write. -/
theorem step_of_write {s : State} {r : WindowReg} {v : Word} {rest : List Event}
    (h : s.script = .write .word (s.build.windowBase + windowOffset r) v :: rest) :
    step s = hostWrite r v { s with script := rest } := by
  rw [step_of_cons h]
  exact react_write_windowOffset r v { s with script := rest }

/-- Bit 9 of a write to STATUS clears LOST (20_memory.md R53). -/
theorem hostWrite_status (v : Word) (s : State) :
    hostWrite .status v s = .next { s with lost := s.lost && !v.getLsbD 9 } := by
  simp only [hostWrite]
  cases v.getLsbD 9 with
  | true => simp
  | false => simp

/-- A write to LIMB_SEL stores bits 3:0 and 31:16 (10_state.md R34). -/
theorem hostWrite_limbSel (v : Word) (s : State) :
    hostWrite .limbSel v s = .next
      { s with limbSelReg := BitVec.ofNat 4 (v.toNat % 2 ^ 4), limbSelLimb := BitVec.ofNat 16 (v.toNat / 2 ^ 16) } := by
  have hreg : v.extractLsb' 0 4 = BitVec.ofNat 4 (v.toNat % 2 ^ 4) := BitVec.eq_of_toNat_eq (by simp)
  have hlimb : v.extractLsb' 16 16 = BitVec.ofNat 16 (v.toNat / 2 ^ 16) :=
    BitVec.eq_of_toNat_eq (by simp [Nat.shiftRight_eq_div_pow])
  rw [hostWrite, hreg, hlimb]

/-- Settles O13, register by register. -/
theorem hostWriteChangesOnlyItsRegister : Obligations.HostWriteChangesOnlyItsRegister := by
  intro s v r rest hs
  rw [step_of_write hs]
  cases r with
  | status => exact hostWrite_status v { s with script := rest }
  | limbSel => exact hostWrite_limbSel v { s with script := rest }
  | cmd | dataLo | dataHi | config | reserved | limbData => rfl

/-! ### Reads -/

/-- A step whose event is the read at a register's address gives the host that register. -/
theorem step_of_read {s : State} {r : WindowReg} {rest : List Event}
    (h : s.script = .read .word (s.build.windowBase + windowOffset r) :: rest) :
    step s = .next { s with script := rest, received := s.received ++ [s.hostRead r] } := by
  have hread : State.hostRead { s with script := rest } r = s.hostRead r := by cases r <;> rfl
  rw [step_of_cons h]
  simp only [react, windowAccess_eq_ok_iff.mpr ⟨rfl, rfl⟩, hread]

/-- Concatenated fields as a number: the upper one weighs as much as the lower one is wide. -/
theorem toNat_append_eq_add {m n : Nat} (x : BitVec m) (y : BitVec n) : (x ++ y).toNat = x.toNat * 2 ^ n + y.toNat := by
  rw [BitVec.toNat_append, ← Nat.shiftLeft_add_eq_or_of_lt y.isLt, Nat.shiftLeft_eq]

/-- CONFIG as a sum of its fields: the constraints on the build make each fit its place (10_state.md R31). -/
theorem configWord_toNat {b : Build} (hb : b.Valid) :
    (configWord b).toNat = b.N + b.L * 2 ^ 16 + (b.K - 1) * 2 ^ 24 + b.trapNeg.toNat * 2 ^ 28 := by
  obtain ⟨hL, -, hN, -, -, hK, -⟩ := hb
  simp only [configWord, toNat_append_eq_add, BitVec.toNat_ofBool, BitVec.toNat_ofNat]
  omega

/-- STATUS as a sum of its fields (10_state.md R23). -/
theorem statusWord_toNat (s : State) : s.statusWord.toNat =
    s.err.code.toNat + s.cmp.code.toNat * 2 ^ 4 + s.bit.toNat * 2 ^ 6 + s.zero.toNat * 2 ^ 7 + s.busy.toNat * 2 ^ 8 +
      s.lost.toNat * 2 ^ 9 := by
  simp only [State.statusWord, toNat_append_eq_add, BitVec.toNat_ofBool, BitVec.toNat_ofNat]
  omega

/-- LIMB_DATA reads 0 if the selected register or limb does not exist (10_state.md R35). -/
theorem limbData_of_out_of_range {s : State} (h : ¬(s.limbSelReg.toNat < s.build.K ∧ s.limbSelLimb.toNat < s.build.N)) :
    s.limbData = 0 := if_neg h

/-- Every register reads as 20_memory.md R52 lays it out. -/
theorem hostRead_toNat {s : State} (h : s.Inv) (r : WindowReg) : (s.hostRead r).toNat = windowValue s r := by
  have ⟨hb, _⟩ := h
  cases r with
  | config => exact configWord_toNat hb
  | status => exact statusWord_toNat s
  | limbSel =>
    simp only [State.hostRead, windowValue, toNat_append_eq_add, BitVec.toNat_ofNat]
    omega
  | limbData =>
    by_cases hsel : s.limbSelReg.toNat < s.build.K ∧ s.limbSelLimb.toNat < s.build.N
    · exact (limbData_toNat hb hsel.1 hsel.2).trans (if_pos hsel).symm
    · simp only [State.hostRead, limbData_of_out_of_range hsel, windowValue, if_neg hsel]
      rfl
  | reserved | cmd | dataLo | dataHi => rfl

/-- Settles O12. -/
theorem hostReadReturnsRegister : Obligations.HostReadReturnsRegister := by
  intro s r rest h hs
  exact ⟨s.hostRead r, step_of_read hs, hostRead_toNat h r⟩

/-! ### Bytes -/

/-- The byte `k` above a register's offset is byte `k` of that register (20_memory.md R58). -/
theorem laneByte_windowOffset_add (s : State) (r : WindowReg) {k : Nat} (hk : k < 4) :
    s.laneByte (windowOffset r + k) = some ((s.hostRead r).extractLsb' (8 * k) 8) := by
  obtain ⟨-, hdvd⟩ := exists_windowOffset_eq_iff.mp ⟨r, rfl⟩
  have hmod : (windowOffset r + k) % 4 = k := by omega
  rw [State.laneByte, hmod, Nat.add_sub_cancel, windowReg_eq_some_iff.mpr rfl, Option.map_some]

/-- A word is the sum of its bytes, byte `k` at weight 2^(8k). -/
theorem toNat_eq_sum_bytes (x : Word) : x.toNat =
    (x.extractLsb' 0 8).toNat + (x.extractLsb' 8 8).toNat * 2 ^ 8 + (x.extractLsb' 16 8).toNat * 2 ^ 16 +
      (x.extractLsb' 24 8).toNat * 2 ^ 24 := by
  simp only [BitVec.extractLsb'_toNat, Nat.shiftRight_eq_div_pow]
  omega

/-- Settles O16. -/
theorem byteLanesAreLittleEndian : Obligations.ByteLanesAreLittleEndian := by
  intro s r
  exact ⟨_, _, _, _, laneByte_windowOffset_add s r (k := 0) (by decide), laneByte_windowOffset_add s r (by decide),
    laneByte_windowOffset_add s r (by decide), laneByte_windowOffset_add s r (by decide), toNat_eq_sum_bytes _⟩

end Sys2Proof.Machine
end

section
/-! PROOFS. The handshake: what a word written to CMD does, idle or busy (20_memory.md R55), what the block's turn does (R56),
and that every command commits (70_reset_and_hazards.md R263). -/

namespace Sys2Proof.Machine

/-! ### A word written to CMD -/

/-- A step whose event is the write of a word to CMD issues that word. -/
theorem step_of_cmdWrite {s : State} {w : Word} {rest : List Event} (h : s.script = cmdWrite s.build w :: rest) :
    step s = issueWord w { s with script := rest } :=
  step_of_write (r := .cmd) h

theorem issueWord_of_command {w : Word} {i : Instr} (h : decode w = .command i) (s : State) :
    issueWord w s = exec i s := by
  simp only [issueWord, h]

theorem issueWord_of_illegal {w : Word} {why : IllegalWord} (h : decode w = .illegal why) (s : State) :
    issueWord w s = .next (s.issue (Execution.raise .illegal s.work)) := by
  simp only [issueWord, h, issueIllegal]

/-- Settles O5. -/
theorem stepRunsDecodedCommand : Obligations.StepRunsDecodedCommand := by
  intro s w i rest hs hw
  rw [step_of_cmdWrite hs, issueWord_of_command hw]

/-- Settles O6: the outcome issued is that of `raise ILLEGAL()`, which stages nothing. -/
theorem malformedWordReportsIllegal : Obligations.MalformedWordReportsIllegal := by
  intro s w why rest hs hidle hw
  have hnone : s.pending = none := by simpa [State.busy] using hidle
  refine ⟨(Execution.raise .illegal s.work).pending, ?_, ?_⟩
  · rw [step_of_cmdWrite hs, issueWord_of_illegal hw, State.issue_of_idle (s := { s with script := rest }) hidle]
    rfl
  · rw [State.commit_of_some rfl]
    simp [hnone]

/-- Settles O8: whatever the word decodes to, it is issued, and an issue while busy only sets LOST. -/
theorem wordWhileBusyIsDropped : Obligations.WordWhileBusyIsDropped := by
  intro s w rest hs hbusy
  obtain ⟨x, hx⟩ := issueWord_eq_issue w { s with script := rest }
  rw [step_of_cmdWrite hs, hx, State.issue_of_busy (s := { s with script := rest }) hbusy]

/-! ### The block's turn -/

/-- A block event, or a step with no event left, commits. -/
theorem step_of_block_or_nil {s : State} {rest : List Event}
    (h : s.script = .block :: rest ∨ s.script = [] ∧ rest = []) :
    step s = .next (State.commit { s with script := rest }) := by
  obtain hblock | ⟨hnil, rfl⟩ := h
  · exact step_of_cons hblock
  · rw [step_of_nil hnil, ← hnil]

/-- Settles O9. -/
theorem blockTurnCommitsPending : Obligations.BlockTurnCommitsPending := by
  intro s rest hturn
  rw [step_of_block_or_nil hturn]
  refine ⟨fun p hp => ?_, fun hidle => ?_⟩
  · rw [State.commit_of_some (s := { s with script := rest }) hp]
    rfl
  · rw [State.commit_of_idle (s := { s with script := rest }) hidle]

/-! ### Every command commits -/

/-- No event changes the events still to come. -/
theorem react_script {s t : State} {e : Event} (he : react e s = .next t) : t.script = s.script := by
  obtain ⟨_, _, _, -, rfl⟩ | ⟨_, _, _, _, _, _, _, _, -, -, rfl⟩ | ⟨_, _, _, x, -, -, -, rfl⟩ | ⟨-, rfl⟩ |
    ⟨regs, work, -, rfl⟩ := react_cases he
  · rfl
  · rfl
  · exact State.issue_script s x
  · exact State.commit_script s
  · rfl

/-- The accesses that a script of events still holds are all admitted. -/
def ScriptAdmitted (s : State) : Prop := ∀ e ∈ s.script, e.admitted s.build = true

/-- With an admitted event next, the step answers a state that holds the events after it, still admitted. -/
theorem ScriptAdmitted.exists_step {s : State} (h : ScriptAdmitted s) {e : Event} {rest : List Event}
    (hs : s.script = e :: rest) :
    ∃ u, step s = .next u ∧ react e { s with script := rest } = .next u ∧ u.script = rest ∧ ScriptAdmitted u := by
  have hnext : e.admitted s.build = true := h e (by simp [hs])
  obtain ⟨u, hu⟩ := react_next (s := { s with script := rest }) hnext
  have hscript : u.script = rest := react_script hu
  have hbuild : u.build = s.build := (react_build hu :)
  refine ⟨u, (step_of_cons hs).trans hu, hu, hscript, fun f hf => ?_⟩
  rw [hscript] at hf
  rw [hbuild]
  exact h f (by simp [hs, hf])

/-- One step for each event, and one more, leave the block idle with no event left. -/
theorem ScriptAdmitted.stepsTo_idle {s : State} (h : ScriptAdmitted s) :
    ∃ t, StepsTo (s.script.length + 1) s t ∧ t.busy = false ∧ t.script = [] := by
  induction hs : s.script generalizing s with
  | nil => exact ⟨s.commit, ⟨_, step_of_nil hs, rfl⟩, State.commit_busy s, by rw [State.commit_script, hs]⟩
  | cons e rest ih =>
    obtain ⟨u, hstep, -, hscript, hu⟩ := h.exists_step hs
    obtain ⟨t, hrun, hdone⟩ := ih hu hscript
    exact ⟨t, ⟨u, hstep, hrun⟩, hdone⟩

/-- `t` is idle, and its registers and result fields are those of `s` with the outcome `p` applied (20_memory.md R56). -/
def Applied (p : Pending) (s t : State) : Prop :=
  t.pending = none ∧ t.regs = applyWrites p.writes s.regs ∧ t.err = p.err ∧ t.cmp = p.cmp.getD s.cmp ∧
    t.bit = p.bit.getD s.bit ∧ t.zero = p.zero.getD s.zero

theorem applied_commit {p : Pending} {s : State} (hp : s.pending = some p) : Applied p s s.commit := by
  rw [State.commit_of_some hp]
  exact ⟨rfl, rfl, rfl, rfl, rfl, rfl⟩

/-- With a command pending, a host access leaves it pending, and leaves what its commit applies to. -/
theorem react_keeps_pending {p : Pending} {s u : State} {e : Event} (hp : s.pending = some p) (hblock : e ≠ .block)
    (hreset : ∀ regs work, e ≠ .reset regs work) (hu : react e s = .next u) :
    u.pending = some p ∧ ∀ t, Applied p u t → Applied p s t := by
  have hbusy : s.busy = true := by simp [State.busy, hp]
  obtain ⟨hpending, hregs, -, hcmp, hbit, hzero, -⟩ := hostCannotDisturbPendingCommand s u e hbusy hblock hreset hu
  exact ⟨hpending.trans hp, fun t ht => by rwa [Applied, hregs, hcmp, hbit, hzero] at ht⟩

/-- A pending command commits at the first block event, or else when the script is used up, if no reset comes. -/
theorem ScriptAdmitted.stepsTo_applied {s : State} {p : Pending} (h : ScriptAdmitted s) (hp : s.pending = some p)
    (hreset : ∀ regs work, Event.reset regs work ∉ s.script) :
    ∃ k t, k ≤ s.script.length + 1 ∧ StepsTo k s t ∧ Applied p s t := by
  induction hs : s.script generalizing s with
  | nil => exact ⟨1, s.commit, le_rfl, ⟨_, step_of_nil hs, rfl⟩, applied_commit hp⟩
  | cons e rest ih =>
    obtain rfl | hblock := eq_or_ne e .block
    · exact ⟨1, _, by simp, ⟨_, step_of_block_or_nil (.inl hs), rfl⟩, applied_commit (s := { s with script := rest }) hp⟩
    · obtain ⟨u, hstep, hreact, hscript, hu⟩ := h.exists_step hs
      rw [hs] at hreset
      have hhead : ∀ regs work, e ≠ .reset regs work := fun regs work he => hreset regs work (by simp [he])
      have htail : ∀ regs work, Event.reset regs work ∉ u.script :=
        fun regs work hmem => hreset regs work (by simp [← hscript, hmem])
      obtain ⟨hpending, happlied⟩ := react_keeps_pending (s := { s with script := rest }) hp hblock hhead hreact
      obtain ⟨k, t, hk, hrun, ht⟩ := ih hu hpending htail hscript
      exact ⟨k + 1, t, Nat.succ_le_succ hk, ⟨u, hstep, hrun⟩, happlied t ht⟩

/-- Settles O11. -/
theorem everyCommandEventuallyCommits : Obligations.EveryCommandEventuallyCommits := by
  intro s h
  exact ⟨fun p hp hreset => ScriptAdmitted.stepsTo_applied h hp hreset, ScriptAdmitted.stepsTo_idle h⟩

end Sys2Proof.Machine
end

section
/-! PROOFS. Encoding and decoding (30_encoding.md R80 to R91). A word decodes to a command iff it matches the command's row of
R87 and holds its operands, and it encodes a well-formed command iff the same two things hold; so `encode` and `decode` are
inverse to each other, and the decoder accepts exactly the rows. -/

namespace Sys2Proof

open Laws.MatchesRow (row)

/-! ### Fields of a word -/

theorem bits_lt (w : Word) (hi lo : Nat) : bits w hi lo < 2 ^ (hi - lo + 1) := Nat.mod_lt _ (Nat.two_pow_pos _)

theorem flag_eq_iff {w : Word} {i : Nat} {b : Bool} : flag w i = b ↔ w.toNat / 2 ^ i % 2 = b.toNat := by
  rw [← flag_toNat]
  cases flag w i <;> cases b <;> decide

theorem extractLsb'_four_eq_zero_iff (w : Word) (lo : Nat) : w.extractLsb' lo 4 = 0#4 ↔ bits w (lo + 3) lo = 0 := by
  rw [← BitVec.toNat_inj, BitVec.extractLsb'_toNat, bits, Nat.add_sub_cancel_left]
  rfl

/-! ### Matching a row -/

theorem row_mem_opcodeRows (i : Instr) : row i ∈ opcodeRows := by
  cases i <;> simp [row, opcodeRows]

/-- The two blocks of ones of a command's mask (R87): the length of the lowest, the place of the higher one and its length. -/
def maskBlocks : Instr → Nat × Nat × Nat
  | .clear _ | .loadint _ => (8, 12, 20)
  | .copy _ _ | .shl1 _ _ | .shr1 _ _ => (8, 16, 16)
  | .iszero _ => (12, 16, 16)
  | .cmp _ _ => (12, 20, 12)
  | .getbit _ _ => (8, 12, 4)
  | .setbit _ _ _ => (8, 13, 3)
  | .add _ _ _ | .sub _ _ _ | .mul _ _ _ => (8, 20, 12)
  | .div _ _ _ _ => (8, 26, 6)
  | .powmod _ _ _ _ => (8, 24, 8)

/-- A word matches a command's row iff its two blocks together are the match value. -/
theorem matches_row_iff {w : Word} {i : Instr} :
    w &&& (row i).1 = (row i).2 ↔
      w.toNat % 2 ^ (maskBlocks i).1 +
          w.toNat / 2 ^ (maskBlocks i).2.1 % 2 ^ (maskBlocks i).2.2 * 2 ^ (maskBlocks i).2.1 = (row i).2.toNat := by
  apply and_mask_eq_iff
  · cases i <;> simp only [maskBlocks] <;> decide
  · cases i <;> simp only [maskBlocks, row] <;> decide

theorem opField_of_matches_row {w : Word} {i : Instr} (h : w &&& (row i).1 = (row i).2) :
    opField w = opField (row i).2 := by
  rw [matches_row_iff] at h
  rw [opField, opField, bits_eq, bits_eq, ← h]
  cases i <;> simp only [maskBlocks] <;> omega

/-! ### The operands in a word -/

/-- The operands of a command stand in the fields of `w` that its row of R87 gives them; DIV's enable bits say which outputs
it has, and the field of one it does not have is 0 (R85). -/
def Instr.FieldsIn (w : Word) : Instr → Prop
  | .clear rd => rdField w = rd
  | .copy rd ra => rdField w = rd ∧ raField w = ra
  | .iszero ra => raField w = ra
  | .cmp ra rb => raField w = ra ∧ rbField w = rb
  | .getbit r idx => rdField w = r ∧ idxOf w = idx
  | .setbit r idx val => rdField w = r ∧ idxOf w = idx ∧ valField w = val
  | .add rd ra rb => rdField w = rd ∧ raField w = ra ∧ rbField w = rb
  | .sub rd ra rb => rdField w = rd ∧ raField w = ra ∧ rbField w = rb
  | .shl1 rd ra => rdField w = rd ∧ raField w = ra
  | .shr1 rd ra => rdField w = rd ∧ raField w = ra
  | .mul rd ra rb => rdField w = rd ∧ raField w = ra ∧ rbField w = rb
  | .div quot rem ra rb =>
    rdField w = quot.getD 0 ∧ qenField w = quot.isSome ∧ rcField w = rem.getD 0 ∧ renField w = rem.isSome ∧
      raField w = ra ∧ rbField w = rb
  | .powmod rd ra rb rc => rdField w = rd ∧ raField w = ra ∧ rbField w = rb ∧ rcField w = rc
  | .loadint rd => rdField w = rd

/-- An output is well formed iff the field that encodes it fits, the field of an absent output being 0 (R85). -/
theorem output_all_regField_iff {o : Option Nat} : o.all regField = true ↔ o.getD 0 < 16 := by
  cases o <;> simp [regField]

/-- Operands read from fields fit them (R83, R86). -/
theorem Instr.FieldsIn.wellFormed {w : Word} {i : Instr} (h : i.FieldsIn w) : i.wellFormed = true := by
  have hrd : rdField w < 16 := bits_lt w 11 8
  have hra : raField w < 16 := bits_lt w 15 12
  have hrb : rbField w < 16 := bits_lt w 19 16
  have hrc : rcField w < 16 := bits_lt w 23 20
  have hidx : idxOf w < 65536 := bits_lt w 31 16
  cases i <;> simp_all [FieldsIn, Instr.wellFormed, output_all_regField_iff, regField, idxField]

/-- An enable bit and a field, which is 0 if disabled, give the output `o` iff they are what encodes `o` (R85). -/
theorem output_eq_iff {enable : Bool} {field : Nat} {o : Option Nat} :
    (enable = false → field = 0) ∧ output enable field = o ↔ field = o.getD 0 ∧ enable = o.isSome := by
  cases enable <;> cases o <;> simp [output]

/-- DIV's operands stand in a word iff they are what the decoder reads there and the disabled fields are 0 (R85). -/
theorem fieldsIn_div_iff {w : Word} {quot rem : Option Nat} {ra rb : Nat} :
    (Instr.div quot rem ra rb).FieldsIn w ↔
      (qenField w = false → rdField w = 0) ∧ (renField w = false → rcField w = 0) ∧
        .div (output (qenField w) (rdField w)) (output (renField w) (rcField w)) (raField w) (rbField w) =
          Instr.div quot rem ra rb := by
  rw [Instr.FieldsIn, ← and_assoc, ← output_eq_iff, ← and_assoc (a := rcField w = _), ← output_eq_iff, Instr.div.injEq]
  tauto

/-! ### The word of a command -/

/-- A word is a well-formed command's word iff it matches the command's row and holds its operands: the mask and the operands'
fields cover every bit of the word once (R81, R82, R87), so both sides say the same of the word as a number. -/
theorem encode_eq_iff {w : Word} {i : Instr} (h : i.wellFormed = true) :
    encode i = w ↔ w &&& (row i).1 = (row i).2 ∧ i.FieldsIn w := by
  have hw := w.isLt
  rw [← BitVec.toNat_inj, matches_row_iff]
  cases i
  case getbit r idx =>
    simp only [Instr.wellFormed, regField, idxField, Bool.and_eq_true, decide_eq_true_eq] at h
    obtain ⟨hr, hidx⟩ := h
    rw [encode, formatB_toNat (by decide) hr hidx]
    simp only [Instr.FieldsIn, maskBlocks, row, rdField, idxOf, bits_eq, Bool.toNat_false, BitVec.reduceToNat]
    omega
  case setbit r idx val =>
    simp only [Instr.wellFormed, regField, idxField, Bool.and_eq_true, decide_eq_true_eq] at h
    obtain ⟨hr, hidx⟩ := h
    have hval := Bool.toNat_le val
    rw [encode, formatB_toNat (by decide) hr hidx]
    simp only [Instr.FieldsIn, maskBlocks, row, rdField, idxOf, valField, bits_eq, flag_eq_iff, BitVec.reduceToNat]
    omega
  case div quot rem ra rb =>
    simp only [Instr.wellFormed, output_all_regField_iff, regField, Bool.and_eq_true, decide_eq_true_eq] at h
    obtain ⟨⟨⟨hquot, hrem⟩, ha⟩, hb⟩ := h
    have hqen := Bool.toNat_le quot.isSome
    have hren := Bool.toNat_le rem.isSome
    rw [encode, formatR_toNat (by decide) hquot ha hb hrem]
    simp only [Instr.FieldsIn, maskBlocks, row, rdField, raField, rbField, rcField, qenField, renField, bits_eq, flag_eq_iff,
      BitVec.reduceToNat]
    omega
  all_goals
    simp only [Instr.wellFormed, regField, Bool.and_eq_true, decide_eq_true_eq] at h
    simp only [encode, formatR, Instr.FieldsIn, maskBlocks, row, rdField, raField, rbField, rcField, bits_eq,
      BitVec.toNat_ofNat, Bool.toNat_false, BitVec.reduceToNat]
    omega

/-! ### The command that a word decodes to -/

/-- DIV's check of a word: its row of R87, then the two disabled fields (R85, R90). -/
theorem decodeDiv_eq_command_iff {w : Word} {i : Instr} :
    decodeDiv w = .command i ↔
      w &&& 0xFC0000FF = 0x0000000C ∧ (qenField w = false → rdField w = 0) ∧ (renField w = false → rcField w = 0) ∧
        .div (output (qenField w) (rdField w)) (output (renField w) (rcField w)) (raField w) (rbField w) = i := by
  unfold decodeDiv
  split_ifs <;> simp_all

/-- A word decodes to a command iff it matches the command's row and holds its operands (R87, R90). -/
theorem decode_eq_command_iff {w : Word} {i : Instr} :
    decode w = .command i ↔ w &&& (row i).1 = (row i).2 ∧ i.FieldsIn w := by
  constructor
  · intro h
    unfold decode at h
    split at h
    case h_12 =>
      obtain ⟨hmatch, hquot, hrem, rfl⟩ := decodeDiv_eq_command_iff.mp h
      exact ⟨hmatch, fieldsIn_div_iff.mpr ⟨hquot, hrem, rfl⟩⟩
    case h_15 => cases h
    all_goals
      obtain ⟨hmatch, rfl⟩ := (strict_eq_command_iff ..).mp h
      exact ⟨hmatch, by simp [Instr.FieldsIn]⟩
  · rintro ⟨hmatch, hfields⟩
    rw [decode, opField_of_matches_row hmatch]
    cases i
    case div => exact decodeDiv_eq_command_iff.mpr ⟨hmatch, fieldsIn_div_iff.mp hfields⟩
    all_goals exact (strict_eq_command_iff ..).mpr ⟨hmatch, by simp_all [Instr.FieldsIn]⟩

/-- A word decodes to a command iff it is the word of that command, which is then well formed. -/
theorem decode_eq_command_iff_encode_eq {w : Word} {i : Instr} :
    decode w = .command i ↔ i.wellFormed = true ∧ encode i = w := by
  rw [decode_eq_command_iff]
  constructor
  · intro h
    exact ⟨h.2.wellFormed, (encode_eq_iff h.2.wellFormed).mpr h⟩
  · rintro ⟨hwf, hw⟩
    exact (encode_eq_iff hwf).mp hw

/-- Settles O1. -/
theorem decodeOfEncode : Obligations.DecodeOfEncode := fun _ h => decode_eq_command_iff_encode_eq.mpr ⟨h, rfl⟩

/-- Settles O2. -/
theorem encodeOfDecode : Obligations.EncodeOfDecode := fun _ _ h => decode_eq_command_iff_encode_eq.mp h

/-- Settles O3. -/
theorem specWordsDecode : Obligations.SpecWordsDecode := by
  unfold Obligations.SpecWordsDecode
  decide

/-! ### Which words decode -/

/-- DIV's disabled fields are 0 in `w` (R85). -/
def DisabledFieldsZero (w : Word) : Prop :=
  (w.getLsbD 24 = false → w.extractLsb' 8 4 = 0#4) ∧ (w.getLsbD 25 = false → w.extractLsb' 20 4 = 0#4)

theorem disabledFieldsZero_iff {w : Word} :
    DisabledFieldsZero w ↔ (qenField w = false → rdField w = 0) ∧ (renField w = false → rcField w = 0) := by
  rw [DisabledFieldsZero, extractLsb'_four_eq_zero_iff, extractLsb'_four_eq_zero_iff]
  rfl

/-- Among the rows, the match value 0x0C is DIV's alone. -/
theorem disabledFieldsZero_of_fieldsIn {w : Word} {i : Instr} (h : i.FieldsIn w) (hdiv : (row i).2 = 0x0000000C) :
    DisabledFieldsZero w := by
  cases i
  case div =>
    obtain ⟨hquot, hrem, -⟩ := fieldsIn_div_iff.mp h
    exact disabledFieldsZero_iff.mpr ⟨hquot, hrem⟩
  all_goals simp [row] at hdiv

/-- Every row is the row of a command whose operands stand in `w`, for DIV's row if the disabled fields are 0. -/
theorem exists_fieldsIn (w : Word) :
    ∀ r ∈ opcodeRows, (r.2 = 0x0000000C → DisabledFieldsZero w) → ∃ i, row i = r ∧ i.FieldsIn w := by
  simp only [opcodeRows, List.forall_mem_cons]
  refine ⟨fun _ => ⟨.clear _, rfl, rfl⟩, fun _ => ⟨.copy _ _, rfl, rfl, rfl⟩, fun _ => ⟨.iszero _, rfl, rfl⟩,
    fun _ => ⟨.cmp _ _, rfl, rfl, rfl⟩, fun _ => ⟨.getbit _ _, rfl, rfl, rfl⟩,
    fun _ => ⟨.setbit _ _ _, rfl, rfl, rfl, rfl⟩, fun _ => ⟨.add _ _ _, rfl, rfl, rfl, rfl⟩,
    fun _ => ⟨.sub _ _ _, rfl, rfl, rfl, rfl⟩, fun _ => ⟨.shl1 _ _, rfl, rfl, rfl⟩,
    fun _ => ⟨.shr1 _ _, rfl, rfl, rfl⟩, fun _ => ⟨.mul _ _ _, rfl, rfl, rfl, rfl⟩, fun hdiv => ?_,
    fun _ => ⟨.powmod _ _ _ _, rfl, rfl, rfl, rfl, rfl⟩, fun _ => ⟨.loadint _, rfl, rfl⟩, List.forall_mem_nil _⟩
  obtain ⟨hquot, hrem⟩ := disabledFieldsZero_iff.mp (hdiv trivial)
  exact ⟨.div _ _ _ _, rfl, fieldsIn_div_iff.mpr ⟨hquot, hrem, rfl⟩⟩

/-- Settles O4. -/
theorem decodeAcceptsExactlyTheRows : Obligations.DecodeAcceptsExactlyTheRows := by
  intro w
  constructor
  · rintro ⟨i, hi⟩
    obtain ⟨hmatch, hfields⟩ := decode_eq_command_iff.mp hi
    exact ⟨row i, row_mem_opcodeRows i, hmatch, disabledFieldsZero_of_fieldsIn hfields⟩
  · rintro ⟨r, hr, hmatch, hdisabled⟩
    obtain ⟨i, rfl, hfields⟩ := exists_fieldsIn w r hr hdisabled
    exact ⟨i, decode_eq_command_iff.mpr ⟨hmatch, hfields⟩⟩

end Sys2Proof
end

section
/-! PROOFS. A used register field at or beyond K (30_encoding.md R86, R90; 60_exceptions.md R226). -/

namespace Sys2Proof.Machine

/-- A used register field at or beyond K makes the outcome that of `raise ILLEGAL()` (30_encoding.md R86). -/
theorem outcomeOf_of_le {i : Instr} {s : State} (h : ∃ f ∈ i.uses, s.build.K ≤ f) :
    outcomeOf i s = Execution.raise .illegal s.work :=
  checked_of_le h _ _

/-- A raised error writes ERR and nothing else (60_exceptions.md R223). -/
theorem completed_raise (s : State) (e : ErrCode) : s.completed (Execution.raise e s.work) = { s with err := e } := rfl

/-- Settles O7. -/
theorem registerFieldBeyondKIsIllegal : Obligations.RegisterFieldBeyondKIsIllegal := by
  intro s i hidle hfield
  rw [runsTo_iff, outcomeOf_of_le hfield, completed_raise]
  exact ⟨hidle, rfl⟩

end Sys2Proof.Machine
end

section
/-! PROOFS. The storage primitives (40_storage.md R111 to R116): each rule's outcome, by the value its limb loop computes, and
the state its commit leaves. -/

namespace Sys2Proof.Machine

/-! ### Running a rule whose registers exist -/

/-- A command issued idle, whose register fields are all below K, runs to its rule's outcome (30_encoding.md R90). -/
theorem runsTo_completed_ruleOf {i : Instr} {s : State} (hb : s.busy = false) (hf : ∀ f ∈ i.uses, f < s.build.K) :
    RunsTo i s (s.completed (ruleOf i s.snapshot s.work)) :=
  runsTo_iff.mpr ⟨hb, congrArg s.completed (checked_of_lt hf _ _).symm⟩

/-- A rule that stages one register write, and leaves the working registers, changes that register and ERR. -/
theorem completed_finish_one (s : State) (e : ErrCode) (r v : Nat) :
    s.completed (Execution.finish e [(r, v)] s.work) = { s with regs := s.regs.set r v, err := e } := rfl

theorem completed_finishZero (s : State) (z : Bool) :
    s.completed (finishZero z s.work) = { s with zero := z, err := .ok } := rfl

theorem completed_finishCmp (s : State) (c : CmpResult) :
    s.completed (finishCmp c s.work) = { s with cmp := c, err := .ok } := rfl

theorem completed_finishBit (s : State) (v : Bool) :
    s.completed (finishBit v s.work) = { s with bit := v, err := .ok } := rfl

/-! ### Registers as N limbs -/

/-- The N limbs of a register hold its whole value (00_scope.md R12). -/
theorem State.reg_mod_limbs {s : State} (h : s.Inv) (r : Nat) : s.reg r % 2 ^ (s.build.L * s.build.N) = s.reg r := by
  rw [← W_eq]
  exact Nat.mod_eq_of_lt (State.reg_lt h r)

/-! ### Rules on a state's snapshot -/

theorem ruleOf_iszero {s : State} (h : s.Inv) (ra : Nat) (w : Working) :
    ruleOf (.iszero ra) s.snapshot w = finishZero (decide (s.reg ra = 0)) w := by
  rw [ruleOf, limbs_all_zero, snapshot_build, snapshot_reg, State.reg_mod_limbs h]

theorem ruleOf_cmp {s : State} (h : s.Inv) (ra rb : Nat) (w : Working) :
    ruleOf (.cmp ra rb) s.snapshot w =
      finishCmp (if s.reg ra = s.reg rb then .equal else if s.reg rb < s.reg ra then .greater else .less) w := by
  rw [ruleOf, compareLimbs_eq, snapshot_build, snapshot_reg, snapshot_reg, State.reg_mod_limbs h, State.reg_mod_limbs h]

theorem ruleOf_getbit {s : State} (h : s.Inv) (r idx : Nat) (w : Working) :
    ruleOf (.getbit r idx) s.snapshot w =
      if s.build.W ≤ idx then Execution.raise .bounds w else finishBit ((s.reg r).testBit idx) w := by
  have ⟨hbuild, _⟩ := h
  rw [ruleOf, snapshot_build, snapshot_reg, bitOf_eq_testBit (Build.Valid.L_pos hbuild)]

theorem ruleOf_setbit (s : State) (r idx : Nat) (val : Bool) (w : Working) :
    ruleOf (.setbit r idx val) s.snapshot w =
      if s.build.W ≤ idx then Execution.raise .bounds w
      else Execution.finish .ok [(r, withBit s.build.W (s.reg r) idx val)] w := rfl

/-! ### The commands -/

/-- Settles O33: all N limbs are 0 iff the whole value is. -/
theorem iszeroTestsWholeValue : Obligations.IszeroTestsWholeValue := by
  intro s ra h hidle hra
  have hrun := runsTo_completed_ruleOf (i := .iszero ra) hidle (by simp [Instr.uses, hra])
  rwa [ruleOf_iszero h, completed_finishZero] at hrun

/-- Settles O34: the loop from the most significant limb down gives the order of the values of all N limbs. -/
theorem cmpGivesUnsignedOrder : Obligations.CmpGivesUnsignedOrder := by
  intro s ra rb h hidle hra hrb
  have hrun := runsTo_completed_ruleOf (i := .cmp ra rb) hidle (by simp [Instr.uses, hra, hrb])
  rwa [ruleOf_cmp h, completed_finishCmp] at hrun

/-- Settles O35: bit `idx` of the limb form is bit `idx` of the value. -/
theorem getbitReadsBitOrReportsBounds : Obligations.GetbitReadsBitOrReportsBounds := by
  intro s r idx h hidle hr
  have hrun := runsTo_completed_ruleOf (i := .getbit r idx) hidle (by simp [Instr.uses, hr])
  rwa [ruleOf_getbit h, apply_ite s.completed, completed_raise, completed_finishBit] at hrun

/-- Settles O36: the value written is `withBit`, which differs from the register in bit `idx` alone. -/
theorem setbitWritesOneBitOrReportsBounds : Obligations.SetbitWritesOneBitOrReportsBounds := by
  intro s r idx val h hidle hr
  have hrun := runsTo_completed_ruleOf (i := .setbit r idx val) hidle (by simp [Instr.uses, hr])
  rw [ruleOf_setbit, apply_ite s.completed, completed_raise, completed_finish_one] at hrun
  split
  case isTrue hidx => rwa [if_pos hidx] at hrun
  case isFalse hidx =>
    rw [if_neg hidx] at hrun
    exact ⟨_, hrun, withBit_testBit (State.reg_lt h r) (Nat.lt_of_not_le hidx) val⟩

/-- Settles O31. -/
theorem clearWritesZero : Obligations.ClearWritesZero := by
  intro s rd hidle hrd
  have hrun := runsTo_completed_ruleOf (i := .clear rd) hidle (by simp [Instr.uses, hrd])
  rwa [ruleOf, completed_finish_one] at hrun

/-- Settles O32: the source is read from the issue-time snapshot, so `rd = ra` is no case of its own. -/
theorem copyWritesSource : Obligations.CopyWritesSource := by
  intro s rd ra hidle hrd hra
  have hrun := runsTo_completed_ruleOf (i := .copy rd ra) hidle (by simp [Instr.uses, hrd, hra])
  rwa [ruleOf, snapshot_reg, completed_finish_one] at hrun

end Sys2Proof.Machine
end

section
/-! PROOFS. The values of the chains of ADD and SUB (41_linear.md R140 to R143): after `j` limbs the stored limbs, with the
carry or borrow at the weight of limb `j`, are the exact sum or difference of the low `j` limbs. -/

namespace Sys2Proof.Machine

/-- The accumulator of an admitted build holds one bit more than a limb (00_scope.md R6). -/
theorem Build.Valid.succ_L_le_accBits {b : Build} (h : b.Valid) : b.L + 1 ≤ b.accBits := by
  obtain ⟨-, -, -, -, -, -, hacc⟩ := h
  exact hacc

/-! ### The carry chain (R140, R141) -/

/-- The accumulator's whole range: two limbs and a carry of at most 1 (R141). -/
theorem addChain_acc_le {b : Build} (h : b.L + 1 ≤ b.accBits) (x y j : Nat) :
    (addChain b x y j).acc ≤ 2 ^ (b.L + 1) - 1 := by
  cases j with
  | zero => exact Nat.zero_le _
  | succ j =>
    have hx := limb_lt b.L x j
    have hy := limb_lt b.L y j
    have hc := addChain_carry_le_one b x y j
    rw [addChain, addChain_acc_succ h, Nat.pow_succ]
    dsimp only
    omega

/-- One limb of the carry chain, whose accumulator does not wrap: it is split at the radix (R140). -/
theorem addChain_succ {b : Build} (h : b.L + 1 ≤ b.accBits) (x y j : Nat) :
    (addChain b x y (j + 1)).low = (addChain b x y j).low +
        (limb b.L x j + limb b.L y j + (addChain b x y j).carry) % 2 ^ b.L * 2 ^ (b.L * j) ∧
      (addChain b x y (j + 1)).carry = (limb b.L x j + limb b.L y j + (addChain b x y j).carry) / 2 ^ b.L := by
  rw [addChain, addChain_acc_succ h, Build.limbMax, Nat.and_two_pow_sub_one_eq_mod, Nat.shiftRight_eq_div_pow, base_pow]
  exact ⟨rfl, rfl⟩

/-- The carry chain after `j` limbs is the exact sum of the low `j` limbs (R140). -/
theorem addChain_value {b : Build} (h : b.L + 1 ≤ b.accBits) (x y j : Nat) :
    (addChain b x y j).low + 2 ^ (b.L * j) * (addChain b x y j).carry =
      x % 2 ^ (b.L * j) + y % 2 ^ (b.L * j) := by
  induction j with
  | zero => simp [addChain, Nat.mod_one]
  | succ j ih =>
    obtain ⟨hlow, hcarry⟩ := addChain_succ h x y j
    have hsplit := Nat.mod_add_div (limb b.L x j + limb b.L y j + (addChain b x y j).carry) (2 ^ b.L)
    rw [hlow, hcarry, mod_succ_limb, mod_succ_limb, Nat.mul_succ, Nat.pow_add]
    linear_combination ih + 2 ^ (b.L * j) * hsplit

/-- The carry chain over all N limbs (R140): the sum mod 2^W and the carry-out. -/
theorem addChain_result {b : Build} (h : b.L + 1 ≤ b.accBits) {x y : Nat} (hx : x < 2 ^ b.W) (hy : y < 2 ^ b.W) :
    (addChain b x y b.N).low = (x + y) % 2 ^ b.W ∧ (addChain b x y b.N).carry = (x + y) / 2 ^ b.W := by
  have hvalue := addChain_value h x y b.N
  have hlow := addChain_low_lt b x y b.N
  rw [← W_eq] at hvalue hlow
  rw [Nat.mod_eq_of_lt hx, Nat.mod_eq_of_lt hy] at hvalue
  obtain ⟨hdiv, hmod⟩ := (Nat.div_mod_unique (Nat.two_pow_pos b.W)).mpr ⟨hvalue, hlow⟩
  exact ⟨hmod.symm, hdiv.symm⟩

/-- Settles O37. -/
theorem carryChainRangeAndResult : Obligations.CarryChainRangeAndResult := by
  intro b x y hb hx hy
  have hacc := Build.Valid.succ_L_le_accBits hb
  exact ⟨fun j => ⟨addChain_acc_le hacc x y j, addChain_carry_le_one b x y j⟩, addChain_result hacc hx hy⟩

/-! ### The borrow chain (R142, R143) -/

/-- The accumulator's whole range: the difference of two limbs and a borrow of 0 or -1 (R143). -/
theorem subChain_acc_range {b : Build} (h : b.L + 1 ≤ b.accBits) (x y j : Nat) :
    -(2 : Int) ^ b.L ≤ (subChain b x y j).acc ∧ (subChain b x y j).acc < 2 ^ b.L := by
  cases j with
  | zero => simp [subChain]
  | succ j =>
    rw [subChain, subChain_acc_succ h]
    exact sub_limb_range b.L x y j (subChain_borrow h x y j)

/-- One limb of the borrow chain, whose accumulator does not wrap: it is split at the radix, rounding down (R142). -/
theorem subChain_succ {b : Build} (h : b.L + 1 ≤ b.accBits) (x y j : Nat) :
    ((subChain b x y (j + 1)).low : Int) = (subChain b x y j).low +
        ((limb b.L x j : Int) - limb b.L y j + (subChain b x y j).borrow) % 2 ^ b.L * 2 ^ (b.L * j) ∧
      (subChain b x y (j + 1)).borrow =
        ((limb b.L x j : Int) - limb b.L y j + (subChain b x y j).borrow) / 2 ^ b.L := by
  have hnonneg := Int.emod_nonneg ((limb b.L x j : Int) - limb b.L y j + (subChain b x y j).borrow)
    (pow_ne_zero b.L (two_ne_zero (α := Int)))
  rw [subChain, subChain_acc_succ h, base_pow, Build.base]
  push_cast
  rw [Int.toNat_of_nonneg hnonneg]
  exact ⟨rfl, rfl⟩

/-- The borrow chain after `j` limbs is the exact difference of the low `j` limbs (R142). -/
theorem subChain_value {b : Build} (h : b.L + 1 ≤ b.accBits) (x y j : Nat) :
    ((subChain b x y j).low : Int) + 2 ^ (b.L * j) * (subChain b x y j).borrow =
      (x % 2 ^ (b.L * j) : Nat) - (y % 2 ^ (b.L * j) : Nat) := by
  induction j with
  | zero => simp [subChain, Nat.mod_one]
  | succ j ih =>
    obtain ⟨hlow, hborrow⟩ := subChain_succ h x y j
    have hsplit := Int.emod_add_mul_ediv ((limb b.L x j : Int) - limb b.L y j + (subChain b x y j).borrow) (2 ^ b.L)
    rw [hlow, hborrow, mod_succ_limb, mod_succ_limb, Nat.mul_succ, pow_add, Nat.cast_add, Nat.cast_add, Nat.cast_mul,
      Nat.cast_mul, Nat.cast_pow, Nat.cast_ofNat]
    linear_combination ih + 2 ^ (b.L * j) * hsplit

/-- The borrow chain over all N limbs (R142): the difference mod 2^W, and the borrow-out, -1 exactly when `x < y`. -/
theorem subChain_result {b : Build} (h : b.L + 1 ≤ b.accBits) {x y : Nat} (hx : x < 2 ^ b.W) (hy : y < 2 ^ b.W) :
    ((subChain b x y b.N).low : Int) = ((x : Int) - y) % 2 ^ b.W ∧
      (subChain b x y b.N).borrow = if x < y then -1 else 0 := by
  have hvalue := subChain_value h x y b.N
  have hlow : ((subChain b x y b.N).low : Int) < 2 ^ (b.L * b.N) := by exact_mod_cast subChain_low_lt b x y b.N
  rw [← W_eq] at hvalue hlow
  rw [Nat.mod_eq_of_lt hx, Nat.mod_eq_of_lt hy] at hvalue
  constructor
  · rw [← hvalue, Int.add_mul_emod_self_left, Int.emod_eq_of_lt (Int.natCast_nonneg _) hlow]
  · obtain hborrow | hborrow := subChain_borrow h x y b.N
    · rw [hborrow] at hvalue ⊢
      rw [if_neg (by omega)]
    · rw [hborrow] at hvalue ⊢
      rw [if_pos (by omega)]

/-- Settles O38. -/
theorem borrowChainRangeAndResult : Obligations.BorrowChainRangeAndResult := by
  intro b x y hb hx hy
  have hacc := Build.Valid.succ_L_le_accBits hb
  refine ⟨fun j => ?_, subChain_result hacc hx hy⟩
  obtain ⟨hlo, hhi⟩ := subChain_acc_range hacc x y j
  exact ⟨hlo, Int.le_sub_one_of_lt hhi, subChain_borrow hacc x y j⟩

end Sys2Proof.Machine
end

section
/-! PROOFS. The linear commands (41_linear.md R144 to R147): each rule's outcome, by the value its limb loop computes,
and the state its commit leaves. -/

namespace Sys2Proof.Machine

/-- A rule that stages one register write changes that register, ERR and the working registers. -/
theorem completed_finish_one_work (s : State) (e : ErrCode) (r v : Nat) (w : Working) :
    s.completed (Execution.finish e [(r, v)] w) = { s with regs := s.regs.set r v, err := e, work := w } := rfl

theorem overflowStatus_decide (p : Prop) [Decidable p] :
    overflowStatus (decide p) = if p then .overflow else .ok := by
  by_cases hp : p <;> simp [overflowStatus, hp]

theorem negativeStatus_decide (trapNeg : Bool) (p : Prop) [Decidable p] :
    negativeStatus trapNeg (decide p) = if p ∧ trapNeg = true then .negative else .ok := by
  by_cases hp : p <;> simp [negativeStatus, hp]

/-! ### Rules on a state's snapshot -/

/-- ADD's rule (R144): there is a carry-out iff the exact sum reaches 2^W. -/
theorem ruleOf_add {s : State} (h : s.Inv) (rd ra rb : Nat) (w : Working) :
    ruleOf (.add rd ra rb) s.snapshot w =
      Execution.finish (if 2 ^ s.build.W ≤ s.reg ra + s.reg rb then .overflow else .ok)
        [(rd, (s.reg ra + s.reg rb) % 2 ^ s.build.W)]
        { w with
          limbAcc := (addChain s.build (s.reg ra) (s.reg rb) s.build.N).acc
          carry := decide (2 ^ s.build.W ≤ s.reg ra + s.reg rb) } := by
  have ⟨hb, _⟩ := h
  have hacc := Build.Valid.succ_L_le_accBits hb
  obtain ⟨hlow, hcarry⟩ := addChain_result hacc (State.reg_lt h ra) (State.reg_lt h rb)
  have hout : ((addChain s.build (s.reg ra) (s.reg rb) s.build.N).carry != 0) =
      decide (2 ^ s.build.W ≤ s.reg ra + s.reg rb) := by
    rw [hcarry, Bool.eq_iff_iff, bne_iff_ne, Nat.div_ne_zero_iff, decide_eq_true_eq]
    exact and_iff_right (Nat.two_pow_pos _).ne'
  simp only [ruleOf, snapshot_build, snapshot_reg, hlow, hout, overflowStatus_decide]

/-- SUB's rule (R145): there is a borrow-out iff `a < b`. -/
theorem ruleOf_sub {s : State} (h : s.Inv) (rd ra rb : Nat) (w : Working) :
    ruleOf (.sub rd ra rb) s.snapshot w =
      Execution.finish (if s.reg ra < s.reg rb ∧ s.build.trapNeg = true then .negative else .ok)
        [(rd, (((s.reg ra : Int) - s.reg rb) % 2 ^ s.build.W).toNat)]
        { w with
          limbAcc := ((subChain s.build (s.reg ra) (s.reg rb) s.build.N).acc % 2 ^ s.build.accBits).toNat
          carry := decide (s.reg ra < s.reg rb) } := by
  have ⟨hb, _⟩ := h
  have hacc := Build.Valid.succ_L_le_accBits hb
  obtain ⟨hlow, hborrow⟩ := subChain_result hacc (State.reg_lt h ra) (State.reg_lt h rb)
  have hout : ((subChain s.build (s.reg ra) (s.reg rb) s.build.N).borrow != 0) = decide (s.reg ra < s.reg rb) := by
    by_cases hlt : s.reg ra < s.reg rb <;> simp [hborrow, hlt]
  simp only [ruleOf, snapshot_build, snapshot_reg, ← hlow, Int.toNat_natCast, hout, negativeStatus_decide]

/-- SHL1's rule (R146): twice the value, without the bit shifted out. -/
theorem ruleOf_shl1 {s : State} (h : s.Inv) (rd ra : Nat) (w : Working) :
    ruleOf (.shl1 rd ra) s.snapshot w = Execution.finish .ok [(rd, 2 * s.reg ra % 2 ^ s.build.W)] w := by
  have ⟨hb, _⟩ := h
  rw [ruleOf, snapshot_build, snapshot_reg, shlChain_low _ (Build.Valid.L_pos hb), ← W_eq]

/-- SHR1's rule (R147): half the value, no carry coming in from above the top limb. -/
theorem ruleOf_shr1 {s : State} (h : s.Inv) (rd ra : Nat) (w : Working) :
    ruleOf (.shr1 rd ra) s.snapshot w = Execution.finish .ok [(rd, s.reg ra / 2)] w := by
  have ⟨hb, _⟩ := h
  rw [ruleOf, snapshot_build, snapshot_reg, shrChain_eq _ (Build.Valid.L_pos hb) _ _ _ (Nat.zero_le 1),
    State.reg_mod_limbs h, Nat.zero_mul, Nat.add_zero]

/-! ### The commands -/

/-- Settles O39: the operands are read from the issue-time snapshot, so shared registers are no case of their own. -/
theorem addWritesSumAndReportsOverflow : Obligations.AddWritesSumAndReportsOverflow := by
  intro s rd ra rb h hidle hrd hra hrb
  have hrun := runsTo_completed_ruleOf (i := .add rd ra rb) hidle (by simp [Instr.uses, hrd, hra, hrb])
  rw [ruleOf_add h, completed_finish_one_work] at hrun
  exact ⟨_, hrun⟩

/-- Settles O40, for builds with and without TRAP_NEG. -/
theorem subWritesDifferenceAndReportsNegative : Obligations.SubWritesDifferenceAndReportsNegative := by
  intro s rd ra rb h hidle hrd hra hrb
  have hrun := runsTo_completed_ruleOf (i := .sub rd ra rb) hidle (by simp [Instr.uses, hrd, hra, hrb])
  rw [ruleOf_sub h, completed_finish_one_work] at hrun
  exact ⟨_, hrun⟩

/-- Settles O41: in place or not, since the source is read from the issue-time snapshot. -/
theorem shlOneDoublesModulo : Obligations.ShlOneDoublesModulo := by
  intro s rd ra h hidle hrd hra
  have hrun := runsTo_completed_ruleOf (i := .shl1 rd ra) hidle (by simp [Instr.uses, hrd, hra])
  rwa [ruleOf_shl1 h, completed_finish_one] at hrun

/-- Settles O42: in place or not, since the source is read from the issue-time snapshot. -/
theorem shrOneHalves : Obligations.ShrOneHalves := by
  intro s rd ra h hidle hrd hra
  have hrun := runsTo_completed_ruleOf (i := .shr1 rd ra) hidle (by simp [Instr.uses, hrd, hra])
  rwa [ruleOf_shr1 h, completed_finish_one] at hrun

end Sys2Proof.Machine
end

section
/-! PROOFS. The value of the multiplier (42_composite.md R170 to R172): its passes keep the invariant of R172, and its loop
makes one pass for each bit of the first operand. -/

namespace Sys2Proof.Machine

/-- The multiplier's registers before its first pass (R170). -/
def mulStart (a b : Nat) (w : Working) : Working := { w with mulAcc := 0, mulX := a, mulY := b }

theorem multiply_eq_mulLoop (W a b : Nat) (w : Working) : multiply W a b w = mulLoop W W (mulStart a b w) := rfl

/-- A number with a bit to shift out is one bit longer than what the shift leaves. -/
theorem size_shiftRight_one {x : Nat} (hx : x ≠ 0) : Nat.size x = Nat.size (x >>> 1) + 1 := by
  have hbit := Nat.bit_testBit_zero_shiftRight_one x
  rw [← hbit] at hx
  conv_lhs => rw [← hbit]
  exact Nat.size_bit hx

/-- With enough fuel the loop makes exactly bitlength(x) passes (R172). -/
theorem mulLoop_eq_iterate (W : Nat) {n : Nat} {w : Working} (h : Nat.size w.mulX ≤ n) :
    mulLoop W n w = (mulPass W)^[Nat.size w.mulX] w := by
  induction n generalizing w with
  | zero => rw [Nat.le_zero.mp h]; rfl
  | succ n ih =>
    rw [mulLoop]
    split
    case isTrue hx => rw [hx]; rfl
    case isFalse hx =>
      have hsize : Nat.size w.mulX = Nat.size (mulPass W w).mulX + 1 := size_shiftRight_one hx
      rw [hsize, Function.iterate_succ_apply]
      exact ih (by omega)

/-- The invariant of R172 after `t` passes on `a` and `b`. -/
structure MulInvariant (W a b t : Nat) (w : Working) : Prop where
  x : w.mulX = a >>> t
  y : w.mulY = b * 2 ^ t % 2 ^ W
  acc : w.mulAcc = b * (a % 2 ^ t) % 2 ^ W

theorem MulInvariant.start {W b : Nat} (hb : b < 2 ^ W) (a : Nat) (w : Working) :
    MulInvariant W a b 0 (mulStart a b w) where
  x := rfl
  y := by simp [mulStart, Nat.mod_eq_of_lt hb]
  acc := by simp [mulStart, Nat.mod_one]

/-- One pass: the low bit of `x` is bit `t` of `a`, and `y` is added at its weight if it is set (R172). -/
theorem MulInvariant.pass {W a b t : Nat} {w : Working} (h : MulInvariant W a b t w) :
    MulInvariant W a b (t + 1) (mulPass W w) where
  x := by simp [mulPass, h.x, Nat.shiftRight_add]
  y := by simp [mulPass, h.y, Nat.shiftLeft_eq, Nat.pow_succ, Nat.mul_assoc]
  acc := by
    have hlow : a % 2 ^ (t + 1) = a % 2 ^ t + 2 ^ t * (a.testBit t).toNat := by
      rw [Nat.pow_succ, Nat.mod_mul, Nat.toNat_testBit]
    simp only [mulPass, h.x, h.y, h.acc, hlow, Nat.testBit_shiftRight, Nat.add_zero]
    cases a.testBit t
    · simp
    · simp [Nat.mul_add]

theorem MulInvariant.iterate {W b : Nat} (hb : b < 2 ^ W) (a : Nat) (w : Working) (t : Nat) :
    MulInvariant W a b t ((mulPass W)^[t] (mulStart a b w)) := by
  induction t with
  | zero => exact .start hb a w
  | succ t ih =>
    rw [Function.iterate_succ_apply']
    exact ih.pass

theorem multiply_eq_iterate {W a : Nat} (ha : a < 2 ^ W) (b : Nat) (w : Working) :
    multiply W a b w = (mulPass W)^[Nat.size a] (mulStart a b w) := by
  rw [multiply_eq_mulLoop]
  exact mulLoop_eq_iterate W (Nat.size_le.mpr ha)

/-- The multiplier leaves the product mod 2^W (R172). -/
theorem multiply_mulAcc {W a b : Nat} (ha : a < 2 ^ W) (hb : b < 2 ^ W) (w : Working) :
    (multiply W a b w).mulAcc = a * b % 2 ^ W := by
  rw [multiply_eq_iterate ha, (MulInvariant.iterate hb a w _).acc, Nat.mod_eq_of_lt (Nat.lt_size_self a), Nat.mul_comm]

/-- Settles O43. -/
theorem multiplierInvariantAndResult : Obligations.MultiplierInvariantAndResult := by
  intro W a b w ha hb
  refine ⟨fun t => ?_, multiply_eq_iterate ha b w, multiply_mulAcc ha hb w⟩
  obtain ⟨hx, hy, hacc⟩ := MulInvariant.iterate hb a w t
  exact ⟨hx, hy, hacc⟩

end Sys2Proof.Machine
end

section
/-! PROOFS. The value of the divider (42_composite.md R175 to R178): its passes, from the top bit of the numerator down, keep the
invariant of R178, because by R176 no shift of the remainder loses a bit. -/

namespace Sys2Proof.Machine

/-- The divider's registers before its first pass (R175). -/
def divStart (w : Working) : Working := { w with divR := 0, divQ := 0 }

/-- The first `n` passes of the divider, for the numerator bits from `m - 1` down (R175). -/
def divPasses (W a b m n : Nat) (w : Working) : Working :=
  (List.range n).foldl (fun v k => divPass W a b (m - 1 - k) v) w

theorem divPasses_succ (W a b m n : Nat) (w : Working) :
    divPasses W a b m (n + 1) w = divPass W a b (m - 1 - n) (divPasses W a b m n w) := by
  simp [divPasses, List.range_succ]

/-- The loop over the bits below `m` is the first `m` passes. -/
theorem divLoop_eq_divPasses (W a b m : Nat) (w : Working) : divLoop W a b m w = divPasses W a b m m w := by
  induction m generalizing w with
  | zero => rfl
  | succ m ih =>
    have hbit (k : Nat) : m + 1 - 1 - (k + 1) = m - 1 - k := by omega
    rw [divLoop, ih, divPasses, divPasses, List.range_succ_eq_map]
    simp only [List.foldl_cons, List.foldl_map, Nat.succ_eq_add_one, hbit]
    rfl

theorem divide_eq_divPasses (W a b : Nat) (w : Working) : divide W a b w = divPasses W a b W W (divStart w) :=
  divLoop_eq_divPasses W a b W (divStart w)

/-- The invariant of R178 once the numerator bits from `i` up are done. -/
structure DivInvariant (a b i : Nat) (w : Working) : Prop where
  rem : w.divR = a >>> i % b
  quot : w.divQ = (a >>> i / b) <<< i

theorem shiftRight_lt_two_pow {W a i : Nat} (ha : a < 2 ^ W) (hi : i ≤ W) : a >>> i < 2 ^ (W - i) := by
  rw [Nat.shiftRight_eq_div_pow]
  refine Nat.div_lt_of_lt_mul ?_
  rwa [← Nat.pow_add, Nat.add_sub_cancel' hi]

/-- R176: if another bit follows, the remainder is below 2^(W-1). -/
theorem DivInvariant.rem_lt {W a b i : Nat} {w : Working} (h : DivInvariant a b i w) (ha : a < 2 ^ W) (hi : 0 < i)
    (hW : i ≤ W) : w.divR < 2 ^ (W - 1) :=
  calc w.divR ≤ a >>> i := h.rem ▸ Nat.mod_le _ _
    _ < 2 ^ (W - i) := shiftRight_lt_two_pow ha hW
    _ ≤ 2 ^ (W - 1) := Nat.pow_le_pow_right (by norm_num) (by omega)

/-- A remainder below 2^(W-1) loses no bit when it is shifted (R176). -/
theorem shiftLeft_one_mod {W r : Nat} (hW : 0 < W) (h : r < 2 ^ (W - 1)) : (r <<< 1) % 2 ^ W = 2 * r := by
  have hpow : 2 ^ W = 2 * 2 ^ (W - 1) := by rw [← Nat.pow_succ', Nat.succ_eq_add_one, Nat.sub_add_cancel hW]
  rw [Nat.shiftLeft_eq, Nat.pow_one, Nat.mul_comm, Nat.mod_eq_of_lt (by omega)]

/-- An even number takes a bit at its low end. -/
theorem two_mul_or_toNat (n : Nat) (bit : Bool) : 2 * n ||| bit.toNat = 2 * n + bit.toNat := by
  have hor := Nat.two_pow_add_eq_or_of_lt (i := 1) (b := bit.toNat) (by cases bit <;> decide) n
  rw [← hor, Nat.pow_one]

/-- One more bit of the numerator. -/
theorem shiftRight_eq_two_mul_add (a i : Nat) : a >>> i = 2 * (a >>> (i + 1)) + (a.testBit i).toNat := by
  rw [Nat.shiftRight_succ, Nat.toNat_testBit, ← Nat.shiftRight_eq_div_pow]
  omega

/-- One pass: the shifted remainder with bit `i` is `a >> i` less `2b` times the quotient so far, so one comparison with `b`
gives the next quotient bit and the next remainder (R178). -/
theorem DivInvariant.pass {W a b i : Nat} {w : Working} (h : DivInvariant a b (i + 1) w) (hb : 0 < b) (ha : a < 2 ^ W)
    (hi : i < W) : DivInvariant a b i (divPass W a b i w) := by
  have hshift := shiftLeft_one_mod (by omega) (h.rem_lt ha (Nat.succ_pos i) hi)
  have hQ : w.divQ = (2 * (a >>> (i + 1) / b)) <<< i := by rw [h.quot, Nat.shiftLeft_succ_inside]
  have hlt : 2 * w.divR + (a.testBit i).toNat < 2 * b := by
    have hR : w.divR < b := h.rem ▸ Nat.mod_lt _ hb
    have hbit := Bool.toNat_le (a.testBit i)
    omega
  have hvalue : 2 * w.divR + (a.testBit i).toNat + b * (2 * (a >>> (i + 1) / b)) = a >>> i := by
    rw [shiftRight_eq_two_mul_add a i, h.rem]
    linear_combination 2 * Nat.mod_add_div (a >>> (i + 1)) b
  simp only [divPass, hshift, hQ, two_mul_or_toNat]
  generalize 2 * w.divR + (a.testBit i).toNat = shifted at *
  generalize a >>> (i + 1) / b = q at *
  split
  case isTrue hge =>
    have hsplit : shifted - b + b * (2 * q + 1) = a >>> i := by rw [Nat.mul_add_one]; omega
    obtain ⟨hdiv, hmod⟩ := (Nat.div_mod_unique hb).mpr ⟨hsplit, by omega⟩
    have hfits : shifted - b < 2 ^ W :=
      calc shifted - b ≤ a >>> i := hmod ▸ Nat.mod_le _ _
        _ ≤ a := Nat.shiftRight_le _ _
        _ < 2 ^ W := ha
    refine ⟨(Nat.mod_eq_of_lt hfits).trans hmod.symm, ?_⟩
    rw [hdiv, ← Nat.shiftLeft_or_distrib]
    exact congrArg (· <<< i) (two_mul_or_toNat q true)
  case isFalse hge =>
    obtain ⟨hdiv, hmod⟩ := (Nat.div_mod_unique hb).mpr ⟨hvalue, Nat.lt_of_not_le hge⟩
    exact ⟨hmod.symm, congrArg (· <<< i) hdiv.symm⟩

/-- R178 for every `i`: `W - i` passes are those for the bits from `i` up. -/
theorem DivInvariant.passes {W a b i : Nat} (hb : 0 < b) (ha : a < 2 ^ W) (hi : i ≤ W) (w : Working) :
    DivInvariant a b i (divPasses W a b W (W - i) (divStart w)) := by
  induction hi using Nat.decreasingInduction with
  | self =>
    have hzero : a >>> W = 0 := Nat.shiftRight_eq_zero _ _ ha
    rw [Nat.sub_self]
    exact ⟨by simp [hzero, divPasses, divStart], by simp [hzero, divPasses, divStart]⟩
  | of_succ i hi ih =>
    have hlast : W - i = W - (i + 1) + 1 := by omega
    have hbit : W - 1 - (W - (i + 1)) = i := by omega
    rw [hlast, divPasses_succ, hbit]
    exact ih.pass hb ha hi

/-- The divider leaves the quotient and the remainder (R178). -/
theorem divide_quot_rem {W a b : Nat} (hb : 0 < b) (ha : a < 2 ^ W) (w : Working) :
    (divide W a b w).divQ = a / b ∧ (divide W a b w).divR = a % b := by
  obtain ⟨hrem, hquot⟩ := DivInvariant.passes hb ha (Nat.zero_le W) w
  rw [Nat.sub_zero, ← divide_eq_divPasses] at hrem hquot
  exact ⟨hquot, hrem⟩

/-- Settles O45. -/
theorem dividerInvariant : Obligations.DividerInvariant := by
  intro W a b i w hb _ ha hi
  have hinv := DivInvariant.passes hb ha hi w
  refine ⟨hinv.rem, hinv.quot, hinv.rem.trans_le (Nat.mod_le _ _), shiftRight_lt_two_pow ha hi, fun hpos => ?_, ?_⟩
  · have hlt := hinv.rem_lt ha hpos hi
    exact ⟨hlt, shiftLeft_one_mod (by omega) hlt⟩
  · rintro rfl
    exact ⟨divide_eq_divPasses W a b w, hinv.quot, hinv.rem⟩

end Sys2Proof.Machine
end

section
/-! PROOFS. The composite commands (42_composite.md R170, R175, R186): each rule's outcome, by the value its loop computes,
and the state its commit leaves. -/

namespace Sys2Proof.Machine

/-! ### Rules on a state's snapshot -/

/-- MUL's rule (R170): the multiplier changes no working register but its own three. -/
theorem ruleOf_mul {s : State} (h : s.Inv) {rd ra rb : Nat} (hne : ¬(rd = ra ∨ rd = rb)) (w : Working) :
    ∃ acc x y, ruleOf (.mul rd ra rb) s.snapshot w =
      Execution.finish .ok [(rd, s.reg ra * s.reg rb % 2 ^ s.build.W)]
        { w with mulAcc := acc, mulX := x, mulY := y } := by
  obtain ⟨acc, x, y, hupdate⟩ := multiply_eq_update s.build.W (s.reg ra) (s.reg rb)
  refine ⟨acc, x, y, ?_⟩
  rw [← hupdate, ← multiply_mulAcc (State.reg_lt h ra) (State.reg_lt h rb) w]
  exact if_neg hne

theorem ruleOf_mul_of_alias {rd ra rb : Nat} (h : rd = ra ∨ rd = rb) (c : Snapshot) (w : Working) :
    ruleOf (.mul rd ra rb) c w = Execution.raise .alias_ w := if_pos h

theorem sameOutput_eq_true_iff {quot rem : Option Nat} :
    sameOutput quot rem = true ↔ ∃ q, quot = some q ∧ rem = some q := by
  cases quot with
  | none => simp [sameOutput]
  | some q => simpa [sameOutput] using eq_comm

/-- DIV's rule for distinct outputs and a non-zero divisor (R175): the divider changes R and Q alone. -/
theorem ruleOf_div {s : State} (h : s.Inv) {quot rem : Option Nat} {ra rb : Nat}
    (hne : ¬∃ q, quot = some q ∧ rem = some q) (hb : s.reg rb ≠ 0) (w : Working) :
    ∃ R Q, ruleOf (.div quot rem ra rb) s.snapshot w =
      Execution.finish .ok
        (quot.toList.map (·, s.reg ra / s.reg rb) ++ rem.toList.map (·, s.reg ra % s.reg rb))
        { w with divR := R, divQ := Q } := by
  obtain ⟨R, Q, hupdate⟩ := divide_eq_update s.build.W (s.reg ra) (s.reg rb)
  obtain ⟨hquot, hrem⟩ := divide_quot_rem (Nat.pos_of_ne_zero hb) (State.reg_lt h ra) w
  refine ⟨R, Q, ?_⟩
  rw [← hupdate, ← hquot, ← hrem]
  exact (if_neg (mt sameOutput_eq_true_iff.mp hne)).trans (if_neg hb)

theorem ruleOf_div_of_alias {quot rem : Option Nat} (h : ∃ q, quot = some q ∧ rem = some q) (ra rb : Nat)
    (c : Snapshot) (w : Working) : ruleOf (.div quot rem ra rb) c w = Execution.raise .alias_ w :=
  if_pos (sameOutput_eq_true_iff.mpr h)

theorem ruleOf_div_of_zero {quot rem : Option Nat} (hne : ¬∃ q, quot = some q ∧ rem = some q) (ra : Nat) {rb : Nat}
    {s : State} (hb : s.reg rb = 0) (w : Working) :
    ruleOf (.div quot rem ra rb) s.snapshot w = Execution.raise .divzero w :=
  (if_neg (mt sameOutput_eq_true_iff.mp hne)).trans (if_pos hb)

/-- LOADINT's rule (R186): N limbs hold the value mod 2^W, and it needs more iff it reaches 2^W. -/
theorem ruleOf_loadint (rd : Nat) (c : Snapshot) (w : Working) :
    ruleOf (.loadint rd) c w =
      Execution.finish (if 2 ^ c.build.W ≤ c.data.toNat then .overflow else .ok)
        [(rd, c.data.toNat % 2 ^ c.build.W)] w := by
  obtain ⟨hout, hovf⟩ := loadLimbs_eq c.build c.build.N c.data.toNat
  simp only [ruleOf, hout, hovf, ← W_eq, overflowStatus_decide]

/-! ### The commands -/

/-- Settles O44. -/
theorem mulWritesProductOrReportsAlias : Obligations.MulWritesProductOrReportsAlias := by
  intro s rd ra rb h hidle hrd hra hrb
  have hrun := runsTo_completed_ruleOf (i := .mul rd ra rb) hidle (by simp [Instr.uses, hrd, hra, hrb])
  split
  case isTrue halias => rwa [ruleOf_mul_of_alias halias, completed_raise] at hrun
  case isFalse hne =>
    obtain ⟨acc, x, y, hrule⟩ := ruleOf_mul h hne s.work
    rw [hrule, completed_finish_one_work] at hrun
    exact ⟨acc, x, y, hrun⟩

/-- Settles O46: the inputs are read from the issue-time snapshot, so an output that names one is no case of its own. -/
theorem divWritesQuotientAndRemainder : Obligations.DivWritesQuotientAndRemainder := by
  intro s quot rem ra rb h hidle hquot hrem hra hrb
  have hfields : ∀ f ∈ (Instr.div quot rem ra rb).uses, f < s.build.K := by
    simp only [Instr.uses, List.forall_mem_append, List.forall_mem_cons, Option.mem_toList]
    exact ⟨⟨hquot, hrem⟩, hra, hrb, List.forall_mem_nil _⟩
  have hrun := runsTo_completed_ruleOf hidle hfields
  split
  case isTrue halias => rwa [ruleOf_div_of_alias halias, completed_raise] at hrun
  case isFalse hne =>
    split
    case isTrue hzero => rwa [ruleOf_div_of_zero hne ra hzero, completed_raise] at hrun
    case isFalse hb =>
      obtain ⟨R, Q, hrule⟩ := ruleOf_div h hne hb s.work
      rw [hrule] at hrun
      refine ⟨R, Q, ?_⟩
      cases quot <;> cases rem <;> exact hrun

/-- Settles O47. -/
theorem loadintWritesDataAndReportsOverflow : Obligations.LoadintWritesDataAndReportsOverflow := by
  intro s rd _ hidle hrd
  have hrun := runsTo_completed_ruleOf (i := .loadint rd) hidle (by simp [Instr.uses, hrd])
  rwa [ruleOf_loadint, completed_finish_one, snapshot_build, snapshot_data_toNat] at hrun

end Sys2Proof.Machine
end

section
/-! PROOFS. The value of POWMOD's engine (43_modexp.md R200, R201): each pass of its loop consumes one bit of the exponent as
`powValue` does, and while base and modulus keep every product below 2^W that value is the modular power. -/

namespace Sys2Proof.Machine

/-! ### The working registers of ADD and SUB under the engine (10_state.md R40) -/

/-- The working registers of ADD and SUB alone. -/
def limbWork (w : Working) : Nat × Bool := (w.limbAcc, w.carry)

theorem mulMod_limbWork (W a b c : Nat) (w : Working) : limbWork (mulMod W a b c w) = limbWork w := by
  obtain ⟨acc, x, y, R, Q, hm⟩ := mulMod_eq_update W a b c
  rw [hm]
  rfl

theorem powMultiply_limbWork (W c : Nat) (w : Working) : limbWork (powMultiply W c w) = limbWork w := by
  unfold powMultiply
  split
  · exact mulMod_limbWork W w.powRes w.powBs c w
  · rfl

theorem powSquare_limbWork (W c : Nat) (w : Working) : limbWork (powSquare W c w) = limbWork w :=
  mulMod_limbWork W w.powBs w.powBs c w

theorem powLoop_limbWork (W c n : Nat) (w : Working) : limbWork (powLoop W c n w) = limbWork w := by
  induction n generalizing w with
  | zero => rfl
  | succ n ih =>
    rw [powLoop]
    split
    · rfl
    · rw [ih, powSquare_limbWork, powMultiply_limbWork]

theorem powMod_limbWork (W a b c : Nat) (w : Working) : limbWork (powMod W a b c w) = limbWork w :=
  powLoop_limbWork W c W _

/-! ### The value of the loop (R200) -/

theorem powRegs_eq_iff {w : Working} {res bs e : Nat} :
    powRegs w = (res, bs, e) ↔ w.powRes = res ∧ w.powBs = bs ∧ w.powE = e := by simp [powRegs]

theorem mulMod_powRegs (W a b c : Nat) (w : Working) : powRegs (mulMod W a b c w) = powRegs w := by
  obtain ⟨acc, x, y, R, Q, hm⟩ := mulMod_eq_update W a b c
  rw [hm]
  rfl

theorem mod_two_pow_mod_lt (n W c : Nat) : n % 2 ^ W % c < 2 ^ W :=
  (Nat.mod_le _ c).trans_lt (Nat.mod_lt _ (Nat.two_pow_pos W))

/-- MUL then DIV leaves the wrapped product's remainder (R200). -/
theorem mulMod_divR {W a b c : Nat} (hc : 0 < c) (ha : a < 2 ^ W) (hb : b < 2 ^ W) (w : Working) :
    (mulMod W a b c w).divR = a * b % 2 ^ W % c := by
  have hacc := multiply_mulAcc ha hb w
  rw [mulMod, (divide_quot_rem hc (hacc ▸ Nat.mod_lt _ (Nat.two_pow_pos W)) _).2, hacc]

/-- The multiplying half of a pass: a set low bit of `e` multiplies `res` by `bs` (R200). -/
theorem powRegs_powMultiply {W c : Nat} (hc : 0 < c) {w : Working} (hres : w.powRes < 2 ^ W) (hbs : w.powBs < 2 ^ W) :
    powRegs (powMultiply W c w) =
      (if w.powE.testBit 0 then w.powRes * w.powBs % 2 ^ W % c else w.powRes, w.powBs, w.powE) := by
  unfold powMultiply
  split
  · obtain ⟨-, hbs', he⟩ := powRegs_eq_iff.mp (mulMod_powRegs W w.powRes w.powBs c w)
    exact powRegs_eq_iff.mpr ⟨mulMod_divR hc hres hbs w, hbs', he⟩
  · rfl

/-- The squaring half of a pass (R200). -/
theorem powRegs_powSquare {W c : Nat} (hc : 0 < c) {w : Working} (hbs : w.powBs < 2 ^ W) :
    powRegs (powSquare W c w) = (w.powRes, w.powBs * w.powBs % 2 ^ W % c, w.powE >>> 1) := by
  obtain ⟨hres, -, he⟩ := powRegs_eq_iff.mp (mulMod_powRegs W w.powBs w.powBs c w)
  exact powRegs_eq_iff.mpr ⟨hres, mulMod_divR hc hbs hbs w, congrArg (· >>> 1) he⟩

/-- One pass of the loop on `res`, `bs` and `e` (R200). -/
theorem powRegs_pass {W c : Nat} (hc : 0 < c) {w : Working} (hres : w.powRes < 2 ^ W) (hbs : w.powBs < 2 ^ W) :
    powRegs (powSquare W c (powMultiply W c w)) =
      (if w.powE.testBit 0 then w.powRes * w.powBs % 2 ^ W % c else w.powRes,
        w.powBs * w.powBs % 2 ^ W % c, w.powE >>> 1) := by
  obtain ⟨hres', hbs', he'⟩ := powRegs_eq_iff.mp (powRegs_powMultiply hc hres hbs)
  rw [powRegs_powSquare hc (hbs'.symm ▸ hbs), hres', hbs', he']

/-- `powValue` on a non-zero exponent takes its low bit, as a pass of the loop does (R200). -/
theorem powValue_bits_of_ne_zero (W c res bs : Nat) {e : Nat} (he : e ≠ 0) :
    powValue W c res bs (Nat.bits e) =
      powValue W c (if e.testBit 0 then res * bs % 2 ^ W % c else res) (bs * bs % 2 ^ W % c) (Nat.bits (e >>> 1)) := by
  have hbits : Nat.bits e = e.testBit 0 :: Nat.bits (e >>> 1) := by
    have hbit := Nat.bit_testBit_zero_shiftRight_one e
    conv_lhs => rw [← hbit]
    exact Nat.bits_append_bit _ _ fun hzero => by
      by_contra hlow
      rw [hzero, Bool.eq_false_of_not_eq_true hlow] at hbit
      exact he hbit.symm
  rw [hbits, powValue]

/-- With fuel for every bit of `e`, the loop leaves in `res` the value of R200's recursion on them. -/
theorem powLoop_powRes {W c n : Nat} (hc : 0 < c) {w : Working} (hres : w.powRes < 2 ^ W) (hbs : w.powBs < 2 ^ W)
    (hn : Nat.size w.powE ≤ n) :
    (powLoop W c n w).powRes = powValue W c w.powRes w.powBs (Nat.bits w.powE) := by
  induction n generalizing w with
  | zero =>
    rw [Nat.size_eq_zero.mp (Nat.le_zero.mp hn), Nat.zero_bits]
    rfl
  | succ n ih =>
    rw [powLoop]
    split
    case isTrue he => rw [he, Nat.zero_bits]; rfl
    case isFalse he =>
      obtain ⟨hres', hbs', he'⟩ := powRegs_eq_iff.mp (powRegs_pass hc hres hbs)
      have hsize := size_shiftRight_one he
      rw [ih, hres', hbs', he', ← powValue_bits_of_ne_zero W c _ _ he]
      · rw [hres']
        split
        · exact mod_two_pow_mod_lt _ W c
        · exact hres
      · exact hbs' ▸ mod_two_pow_mod_lt _ W c
      · rw [he']
        omega

/-- The engine leaves the value of R200's recursion on the bits of the exponent. -/
theorem powMod_eq_powValue {W a b c : Nat} (hW : 0 < W) (ha : a < 2 ^ W) (hb : b < 2 ^ W) (hc : 0 < c) (w : Working) :
    (powMod W a b c w).powRes = powValue W c 1 a (Nat.bits b) :=
  powLoop_powRes hc (Nat.one_lt_two_pow hW.ne') ha (Nat.size_le.mpr hb)

/-! ### When the value is the modular power (R201) -/

/-- A product of two values of half the width does not wrap. -/
theorem mul_mod_two_pow_of_half {W x y : Nat} (hx : x ≤ 2 ^ (W / 2)) (hy : y < 2 ^ (W / 2)) : x * y % 2 ^ W = x * y := by
  refine Nat.mod_eq_of_lt ?_
  calc x * y < 2 ^ (W / 2) * 2 ^ (W / 2) := Nat.mul_lt_mul_of_le_of_lt hx hy (Nat.two_pow_pos _)
    _ = 2 ^ (W / 2 + W / 2) := (Nat.pow_add ..).symm
    _ ≤ 2 ^ W := Nat.pow_le_pow_right (by norm_num) (by omega)

/-- While `res` and `bs` stay within half the width, which a modulus of half the width ensures, no product wraps and the
loop's value is the modular power (R201). -/
theorem powValue_bits_eq_pow_mod {W c res bs e : Nat} (hc : 0 < c) (hhalf : c ≤ 2 ^ (W / 2)) (he : e ≠ 0)
    (hres : res ≤ 2 ^ (W / 2)) (hbs : bs < 2 ^ (W / 2)) :
    powValue W c res bs (Nat.bits e) = res * bs ^ e % c := by
  induction e using Nat.binaryRecFromOne generalizing res bs with
  | zero => exact absurd rfl he
  | one => simp [powValue, mul_mod_two_pow_of_half hres hbs]
  | bit bit n hn ih =>
    have hsquare : bs * bs % c < 2 ^ (W / 2) := (Nat.mod_lt _ hc).trans_le hhalf
    rw [Nat.bits_append_bit n bit fun h => absurd h hn, powValue, mul_mod_two_pow_of_half hres hbs,
      mul_mod_two_pow_of_half hbs.le hbs]
    have hpow : (bs * bs % c) ^ n ≡ (bs * bs) ^ n [MOD c] := (Nat.mod_modEq _ c).pow n
    cases bit with
    | false =>
      rw [if_neg Bool.false_ne_true, ih hn hres hsquare, Nat.bit_false, Nat.pow_mul, Nat.pow_two]
      exact hpow.mul_left res
    | true =>
      have hprod : res * bs % c ≤ 2 ^ (W / 2) := (Nat.mod_lt _ hc).le.trans hhalf
      have hregroup : res * ((bs * bs) ^ n * bs) = res * bs * (bs * bs) ^ n := by ring
      rw [if_pos rfl, ih hn hprod hsquare, Nat.bit_true, Nat.pow_succ, Nat.pow_mul, Nat.pow_two, hregroup]
      exact (Nat.mod_modEq _ c).mul hpow

/-- R201's conditions on the base, the exponent and the modulus make the loop's value the modular power. -/
theorem powValue_eq_pow_mod_of_conditions {W a b c : Nat} (ha : a < 2 ^ W) (hc : 0 < c)
    (h : b = 1 ∨ b = 0 ∧ 2 ≤ c ∨ 2 ≤ b ∧ a < 2 ^ (W / 2) ∧ c ≤ 2 ^ (W / 2)) :
    powValue W c 1 a (Nat.bits b) = a ^ b % c := by
  obtain rfl | ⟨rfl, hc2⟩ | ⟨hb, hbase, hhalf⟩ := h
  · simp [powValue, Nat.mod_eq_of_lt ha]
  · simp [powValue, Nat.mod_eq_of_lt hc2]
  · rw [powValue_bits_eq_pow_mod hc hhalf (by omega) Nat.one_le_two_pow hbase, Nat.one_mul]

end Sys2Proof.Machine
end

section
/-! PROOFS. The command POWMOD (43_modexp.md R200, R201): its rule's outcome, and the state its commit leaves. -/

namespace Sys2Proof.Machine

/-! ### The rule on a state's snapshot -/

/-- POWMOD's rule for a non-zero modulus (R200): the loop's value is staged. -/
theorem ruleOf_powmod {s : State} (h : s.Inv) (rd ra rb : Nat) {rc : Nat} (hc : s.reg rc ≠ 0) (w : Working) :
    ruleOf (.powmod rd ra rb rc) s.snapshot w =
      Execution.finish .ok [(rd, powValue s.build.W (s.reg rc) 1 (s.reg ra) (Nat.bits (s.reg rb)))]
        (powMod s.build.W (s.reg ra) (s.reg rb) (s.reg rc) w) := by
  have ⟨hbuild, _⟩ := h
  rw [← powMod_eq_powValue (Build.Valid.W_pos hbuild) (State.reg_lt h ra) (State.reg_lt h rb) (Nat.pos_of_ne_zero hc) w]
  exact if_neg hc

theorem ruleOf_powmod_of_zero (rd ra rb : Nat) {rc : Nat} {s : State} (hc : s.reg rc = 0) (w : Working) :
    ruleOf (.powmod rd ra rb rc) s.snapshot w = Execution.raise .divzero w := if_pos hc

/-! ### The command -/

/-- Settles O48: the operands are read from the issue-time snapshot, so shared register fields are no case of their own. -/
theorem powmodComputesTheLoopValue : Obligations.PowmodComputesTheLoopValue := by
  intro s rd ra rb rc h hidle hrd hra hrb hrc
  have hrun := runsTo_completed_ruleOf (i := .powmod rd ra rb rc) hidle (by simp [Instr.uses, hrd, hra, hrb, hrc])
  split
  case isTrue hzero => rwa [ruleOf_powmod_of_zero rd ra rb hzero, completed_raise] at hrun
  case isFalse hc =>
    rw [ruleOf_powmod h rd ra rb hc, completed_finish_one_work] at hrun
    have hwork := powMod_limbWork s.build.W (s.reg ra) (s.reg rb) (s.reg rc) s.work
    exact ⟨_, congrArg Prod.fst hwork, congrArg Prod.snd hwork, hrun⟩

/-- Settles O49: under R201's conditions the loop's value of O48 is the modular power. In R201's first example the square of
2^32 wraps to 0; in the second the loop makes no pass, so `res` stays 1 though every remainder by 1 is 0. -/
theorem powmodIsExactUnderItsConditions : Obligations.PowmodIsExactUnderItsConditions := by
  refine ⟨fun s rd ra rb rc h hidle hrd hra hrb hrc hc hcond => ?_, ?_, by norm_num, fun _ => rfl⟩
  · have hrun := powmodComputesTheLoopValue s rd ra rb rc h hidle hrd hra hrb hrc
    rwa [if_neg hc, powValue_eq_pow_mod_of_conditions (State.reg_lt h ra) (Nat.pos_of_ne_zero hc) hcond] at hrun
  · rw [powMod_eq_powValue (by norm_num) (by norm_num) (by norm_num) (by norm_num)]
    decide

end Sys2Proof.Machine
end

section
/-! PROOFS. A command that raises writes ERR and nothing else (60_exceptions.md R223). -/

namespace Sys2Proof.Machine

/-- Only `raise <Code>()` leaves a raised code: every other form finishes with OK, OVERFLOW or NEGATIVE
(60_exceptions.md R220). -/
theorem OutcomeForm.eq_raise_of_raised {i : Instr} {w : Working} {x : Execution} (h : OutcomeForm i w x)
    (hx : x.pending.err.raised = true) : x = Execution.raise x.pending.err w := by
  cases h with
  | raise => rfl
  | finish e ws w' he => exact absurd (he.symm.trans hx) Bool.false_ne_true
  | zero | cmp | bit => exact absurd hx Bool.false_ne_true

/-- Settles O25: the outcome is that of `raise`, whose commit changes ERR alone. -/
theorem raisedErrorWritesOnlyErr : Obligations.RaisedErrorWritesOnlyErr := by
  intro i s t hrun hraised
  obtain ⟨-, rfl⟩ := runsTo_iff.mp hrun
  have hraise : outcomeOf i s = Execution.raise (outcomeOf i s).pending.err s.work :=
    (outcomeOf_form i s).eq_raise_of_raised hraised
  calc s.completed (outcomeOf i s)
      = s.completed (Execution.raise (outcomeOf i s).pending.err s.work) := congrArg s.completed hraise
    _ = { s with err := (s.completed (outcomeOf i s)).err } := completed_raise s _

end Sys2Proof.Machine
end

section
/-! PROOFS. Registers left undefined by a reset do not reach the defined ones (70_reset_and_hazards.md R252, R253). -/

namespace Sys2Proof.Machine

/-- A command that raises an error leaves every operand register as it was (60_exceptions.md R223). -/
theorem RunsTo.reg_of_raised {i : Instr} {s t : State} (h : RunsTo i s t) (herr : t.err.raised = true) (r : Nat) :
    t.reg r = s.reg r := by
  rw [raisedErrorWritesOnlyErr i s t h herr]
  rfl

/-- A command leaves every operand register that is no destination as it was (10_state.md R21). -/
theorem RunsTo.reg_of_not_mem_dests {i : Instr} {s t : State} (h : RunsTo i s t) {r : Nat} (hr : r ∉ i.dests) :
    t.reg r = s.reg r := by
  obtain ⟨hkept, -⟩ := commandWritesOnlyItsDestinations i s t h
  exact hkept r hr

/-- Settles O28: a register of `D` that the command does not write keeps its value in both runs; one that it writes is a
destination, which depends on the registers read alone (O27), and if an error is raised no register is written. -/
theorem definedRegistersStayDefined : Obligations.DefinedRegistersStayDefined := by
  intro D i s t s' t' hs ht hbuild hlo hhi hD hrs hrt
  have hunwritten : ∀ r ∈ D, r ∉ i.dests → s'.reg r = t'.reg r := by
    intro r hr hdest
    rw [hrs.reg_of_not_mem_dests hdest, hrt.reg_of_not_mem_dests hdest, hD r hr]
  refine ⟨hunwritten, fun hreads => ?_⟩
  obtain ⟨herr, hdests, -⟩ := commandDependsOnlyOnWhatItReads i s t s' t' hs ht hbuild
    (fun r hr => hD r (hreads r hr)) (fun _ => ⟨hlo, hhi⟩) hrs hrt
  refine ⟨herr, fun r hr => ?_, fun hok r hr => hdests r hr hok⟩
  by_cases hdest : r ∈ i.dests
  · cases hraised : s'.err.raised with
    | true => rw [hrs.reg_of_raised hraised, hrt.reg_of_raised (herr ▸ hraised), hD r hr]
    | false => exact hdests r hdest hraised
  · exact hunwritten r hr hdest

end Sys2Proof.Machine
end

section
/-! PROOFS. The reset event (70_reset_and_hazards.md R250), and that it leaves every choice of register values open
(93_implementation_defined.md I1). -/

namespace Sys2Proof.Machine

/-- A reset cuts its values to K registers of W bits, so values of that form come through as they are. -/
theorem resetRegs_eq_self {b : Build} {regs : List Nat} (hlen : regs.length = b.K) (hlt : ∀ v ∈ regs, v < 2 ^ b.W) :
    resetRegs b regs = regs := by
  refine List.ext_getElem (by simp [hlen]) fun n _ hn => ?_
  simp [resetRegs, hn, Nat.mod_eq_of_lt (hlt _ (List.getElem_mem hn))]

/-- Working registers that hold values of their widths are not cut (10_state.md R40). -/
theorem fit_eq_self {b : Build} {w : Working} (h : w.Ok b) : w.fit b = w := by
  obtain ⟨hlimb, hacc, hx, hy, hR, hQ, hres, hbs, he⟩ := h
  simp only [Working.fit, Nat.mod_eq_of_lt, *]

/-- A reset event whose values have their widths leaves exactly those values. -/
theorem resetEvent_eq_resetOf {s : State} {regs : List Nat} {work : Working} (hlen : regs.length = s.build.K)
    (hlt : ∀ v ∈ regs, v < 2 ^ s.build.W) (hw : work.Ok s.build) :
    s.resetEvent regs work =
      { State.resetOf s.build regs work with script := s.script, received := s.received } := by
  rw [State.resetEvent, resetRegs_eq_self hlen hlt, fit_eq_self hw]

/-- Settles O17: every field of the state a reset event leaves, and the event that carries the chosen values. -/
theorem resetEventClearsTheBlock : Obligations.ResetEventClearsTheBlock := by
  refine ⟨fun s regs work rest hs => ?_, fun s regs work hlen hlt hw => ?_⟩
  · exact ⟨State.resetEvent { s with script := rest } regs work, step_of_cons hs, rfl, rfl, rfl, rfl, rfl, rfl, rfl, rfl,
      rfl, rfl, rfl, rfl, rfl, rfl, resetRegs_length s.build regs, resetRegs_lt s.build regs⟩
  · exact ⟨.reset regs work, congrArg _ (resetEvent_eq_resetOf hlen hlt hw)⟩

end Sys2Proof.Machine
end
